-- ==== Sys2Proof/Word.lean ====
section
/-! DEFINITION. Words and bytes (spec/00_scope.md R5, R6). -/

namespace Sys2Proof

/-- A memory cell's content: 8 bits (R5, `BYTE`). -/
abbrev Byte := BitVec 8

/-- A register's content and a literal: 16 bits, unsigned (R5, `XLEN`; R6, R10). -/
abbrev Word := BitVec 16

end Sys2Proof
end

