-- ==== Sys2Proof/Config.lean ====
section
/-! DEFINITION. The block's parameters (spec/00_scope.md R5). No value of this machine is left free: the spec decides
every point the source leaves open (spec/93_implementation_defined.md), so this file holds no opaque constant. The three
opcode bytes, a parameter too (decision D5), stand in Decode.lean beside the decoder. -/

namespace Sys2Proof.Config

/-- The largest MEM_SIZE: `ip` is 16 bits wide, so no byte above could be fetched (R5, R39; decision D3). -/
def maxMemSize : Nat := 65536

/-- MEM_SIZE of `State.reset`. DESIGN CHOICE (log 1): the spec leaves MEM_SIZE open, 0 to 65536 (R5); every
statement about a step holds for every MEM_SIZE, which is a field of State. -/
def resetMemSize : Nat := 65536

/-- REG_COUNT: `ip, acc, r1..r8` (R5, R10). -/
def regCount : Nat := 10

/-- RB_SIZE: two bytes for each register (R5, R12). -/
def regBankSize : Nat := 2 * regCount

end Sys2Proof.Config
end

