-- ==== Sys2Proof/Syntax.lean ====
section
/-! DEFINITION. The instructions (spec/30_encoding.md R46 to R51) and the register names (spec/10_state.md R10). -/

namespace Sys2Proof

/-- The closed set of three instructions (R51). One constructor for each row of spec/opcode_table.json. -/
inductive Instr where
  /-- MOV_LIT_R1, format LIT16 (R47, R67): all 16 bits of the literal are significant. -/
  | movLitR1 (lit : Word)
  /-- MOV_LIT_R2, format LIT16 (R47, R68). -/
  | movLitR2 (lit : Word)
  /-- ADD_REG_REG, format SLOT2 (R48, R70): two slot indices of 8 significant bits each (R54). -/
  | addRegReg (a b : Byte)
  deriving DecidableEq, Repr

/-- The fixed closed set of register names, in declared order (R10, R11). -/
inductive RegName where
  | ip | acc | r1 | r2 | r3 | r4 | r5 | r6 | r7 | r8
  deriving DecidableEq, Repr

/-- The ten names in declared order (R10, R86). -/
def RegName.all : List RegName := [.ip, .acc, .r1, .r2, .r3, .r4, .r5, .r6, .r7, .r8]

end Sys2Proof
end

