-- ==== Sys2Proof/WellFormed.lean ====
section
/-! DEFINITION. Well-formed instructions: the operands that are "legal (executes)" in the table of
spec/30_encoding.md R55. Every value of every operand is a legal ENCODING (R54), so an instruction that is not
well-formed is still encoded, decoded and run: it fails with OutOfBounds (R73). Log 15. -/

namespace Sys2Proof

/-- A slot index that selects a register: 0 to 9 (R50 b, R55). -/
def slotLegal (i : Byte) : Bool := decide (i.toNat < Config.regCount)

/-- The operands are those R55 lists as "legal (executes)": any literal, and two slot indices 0 to 9. -/
def Instr.wellFormed : Instr → Bool
  | .movLitR1 _ => true
  | .movLitR2 _ => true
  | .addRegReg a b => slotLegal a && slotLegal b

end Sys2Proof
end

