-- ==== Sys2Proof/Decode.lean ====
section
/-! DEFINITION. Byte order, opcodes, the decoder and the encoder (spec/30_encoding.md; byte order spec/20_memory.md R28). -/

namespace Sys2Proof

/-! ### Byte order (R28): the byte at the lower address is the more significant. -/

/-- `hi ++ lo`, that is `hi x 256 + lo` (R6, R28). -/
def wordOfBytes (hi lo : Byte) : Word := hi ++ lo

/-- `w[15:8]` (R6). -/
def hiByte (w : Word) : Byte := w.extractLsb' 8 8

/-- `w[7:0]` (R6). -/
def loByte (w : Word) : Byte := w.extractLsb' 0 8

/-! ### The opcode map (R51; the numerals are decision D5, log 4) -/

def opMovLitR1 : Byte := 0x10#8
def opMovLitR2 : Byte := 0x11#8
def opAddRegReg : Byte := 0x12#8

/-- What follows an opcode (R46): a big-endian literal (R47) or two slot indices, `A` first (R48), with the
instruction the operands complete. -/
inductive Shape where
  | lit16 (instr : Word → Instr)
  | slot2 (instr : Byte → Byte → Instr)

/-- The opcode byte alone selects the format (R49); `none` for the 253 illegal bytes (R53). -/
def shapeOf (op : Byte) : Option Shape :=
  if op = opMovLitR1 then some (.lit16 .movLitR1)
  else if op = opMovLitR2 then some (.lit16 .movLitR2)
  else if op = opAddRegReg then some (.slot2 .addRegReg)
  else none

/-- What decoding answers on any bytes. -/
inductive DecodeResult where
  /-- An instruction, and the bytes after it. -/
  | instr (i : Instr) (rest : List Byte)
  /-- The first byte is not an opcode (R53): the byte it carries is the offending one. -/
  | unknownOpcode (op : Byte)
  /-- There is no first byte, or fewer than two bytes follow a legal opcode (R49). -/
  | truncated
  deriving DecidableEq, Repr

/-- The decoder (R49 to R51): opcode, format, operand assembly. -/
def decode : List Byte → DecodeResult
  | [] => .truncated
  | op :: rest =>
    match shapeOf op with
    | none => .unknownOpcode op
    | some shape =>
      match shape, rest with
      | .lit16 instr, hi :: lo :: rest => .instr (instr (wordOfBytes hi lo)) rest
      | .slot2 instr, a :: b :: rest => .instr (instr a b) rest
      | _, _ => .truncated

/-! ### The encoder (R47, R48, R51, R57) -/

/-- The bytes of an instruction, the byte at the lowest address first (R46). -/
def encode : Instr → List Byte
  | .movLitR1 lit => [opMovLitR1, hiByte lit, loByte lit]
  | .movLitR2 lit => [opMovLitR2, hiByte lit, loByte lit]
  | .addRegReg a b => [opAddRegReg, a, b]

/-! ### The table's view (R56): `byte0 ++ byte1 ++ byte2`, byte 0 in bits 23:16 -/

/-- The bytes of an instruction given as the number `w` of `nbits` bits in the numbering of
spec/opcode_table.json: the FIRST byte is the most significant (R56; log 14). Bytes the table gives no bits
are zero, up to the three bytes of every instruction (R46). -/
def tableBytes (nbits w : Nat) : List Byte :=
  let n := (nbits + 7) / 8
  (List.range n).map (fun k => BitVec.ofNat 8 (w >>> (8 * (n - 1 - k)))) ++ List.replicate (3 - n) 0#8

/-- The instruction the decoder reads from a word of the opcode table. -/
def decodeTableWord (nbits w : Nat) : Option Instr :=
  match decode (tableBytes nbits w) with
  | .instr i _ => some i
  | .unknownOpcode _ => none
  | .truncated => none

/-- The 24-bit number the table's view gives an instruction (R56). -/
def tableWord (i : Instr) : Nat := (encode i).foldl (fun w b => w * 256 + b.toNat) 0

end Sys2Proof
end

