-- ==== Sys2Proof/Machine/State.lean ====
section
/-! DEFINITION. The state (spec/10_state.md), the reasons a step can stop, and reset (spec/70_reset_and_hazards.md). -/

namespace Sys2Proof.Machine

/-- The content of a byte buffer: (address, byte) pairs in one canonical form (`Memory.wf`). -/
abbrev Memory := List Host.Cell

/-- What an unlisted address reads as: a buffer is "created zero-filled" (R27). -/
def Memory.unlisted : Byte := 0#8

/-- The canonical form of the content of a buffer of `len` bytes: addresses strictly rising, all below `len`, and no
entry equal to what an unlisted address reads as. -/
def Memory.wf (len : Nat) : Memory → Bool
  | [] => true
  | (a, b) :: m =>
    decide (a < len) && b != Memory.unlisted && m.all (fun c => decide (a < c.1)) && Memory.wf len m

/-- One instance of the Memory component (R30): its bytes and its two independent cursors (R25). Its length is not
kept here: it is MEM_SIZE for `M` and 20 for `RB`. -/
structure Buffer where
  cells : Memory
  rc : Nat
  wc : Nat
  deriving DecidableEq, Repr

/-- A buffer as it is created: zero-filled (R27), cursors 0 (R27, decision D8; log 7). -/
def Buffer.empty : Buffer := { cells := [], rc := 0, wc := 0 }

/-- The whole state (R26): program memory and the register bank, each with its two cursors, and MEM_SIZE, which is
fixed at construction and which no operation changes (R5, R23; log 1). The ten registers ARE the twenty bytes of
`rb` (R12); `State.reg` (Ops.lean) is the word view of them. -/
structure State where
  /-- MEM_SIZE, 0 to 65536 (R5). -/
  memSize : Nat
  /-- Program memory `M`, MEM_SIZE bytes (R23). -/
  m : Buffer
  /-- The register bank `RB`, 20 bytes: `ip, acc, r1..r8` as big-endian words (R11, R12). -/
  rb : Buffer
  deriving DecidableEq, Repr

/-- The data is in canonical form and MEM_SIZE in its range (R5). -/
def State.wf (s : State) : Bool :=
  decide (s.memSize ≤ Config.maxMemSize) && s.m.cells.wf s.memSize && s.rb.cells.wf Config.regBankSize

/-- The block right after construct(memSize), its only reset (R27, R81, R113, R114): all bytes zero, all ten
registers zero, cursors 0. -/
def State.constructed (memSize : Nat) : State := { memSize, m := .empty, rb := .empty }

/-- The machine right after reset: constructed with the MEM_SIZE the model names (DESIGN CHOICE, log 1). -/
def State.reset : State := State.constructed Config.resetMemSize

/-- The three failure kinds (R93). They are identified by name; only one carries a value (decision D16, log 18). -/
inductive FailureKind where
  | registerNotFound
  | outOfBounds
  | unknownInstruction (op : Byte)
  deriving DecidableEq, Repr

/-- A failed operation: its kind, and THE STATE IT LEAVES, which is not rolled back (R99). The spec calls a failed
step a fault (60_exceptions.md, opening; R103). A further step goes on from the state left (R101; `resume`). -/
inductive Fault where
  /-- R95. Raised by a step (opcode, literal and slot-index fetches beyond MEM_SIZE; slot reads beyond the register
  bank) and by a load longer than MEM_SIZE. Safe: kind and state left are the spec's (R95, R99). -/
  | outOfBounds (left : State)
  /-- R96. Raised by a step whose opcode byte is none of the three; carries that byte. Safe: kind, byte and state
  left are the spec's (R63, R99 row 2). -/
  | unknownInstruction (op : Byte) (left : State)
  /-- R94. Raised by get_register and set_register on a name outside the set, never by a step. Safe: the spec's own
  kind, with no state change. -/
  | registerNotFound (left : State)
  deriving DecidableEq, Repr

/-- What the model gives no meaning. A step never answers one: all three instructions have their meaning. -/
inductive Refusal where
  /-- An instruction whose meaning is not written: raised by no arm of exec. Safe. -/
  | notModelled (mnemonic : String)
  /-- Raised by the host operation construct with a capacity above 65536: "a larger memory is refused, not given a
  meaning" (decision D3; log 16). Safe. -/
  | capacityTooLarge
  /-- Raised by any host operation but construct when nothing is constructed yet (R88). Safe. -/
  | notConstructed
  /-- Raised by a second load, or a load after the first step: "this spec provides none" (R82, decision D13, U17;
  log 11). Safe. -/
  | loadNotProvided
  deriving DecidableEq, Repr

end Sys2Proof.Machine
end

