-- ==== Sys2Proof/Machine/Ops.lean ====
section
/-! DEFINITION. The operations over memory and registers (spec/20_memory.md R30 to R35; spec/10_state.md R10 to R13),
raising a failure (spec/00_scope.md R7, spec/60_exceptions.md R99), and the two fetches (spec/40_fetch_decode_dispatch.md
R59, R60). They follow the spec's pseudocode line by line. -/

namespace Sys2Proof.Machine

/-! ### The bytes of a buffer -/

/-- The byte at an address. -/
def Memory.read : Memory → Nat → Byte
  | [], _ => Memory.unlisted
  | (k, b) :: m, a => if k = a then b else Memory.read m a

/-- Put a cell before the first one of a greater address. -/
def Memory.insert (c : Host.Cell) : Memory → Memory
  | [] => [c]
  | d :: m => if c.1 < d.1 then c :: d :: m else d :: Memory.insert c m

/-- Store one byte; storing what an unlisted address reads as removes the entry. -/
def Memory.write (m : Memory) (a : Nat) (b : Byte) : Memory :=
  let others := m.filter (fun c => c.1 != a)
  if b = Memory.unlisted then others else Memory.insert (a, b) others

/-- Store bytes at `a`, `a + 1`, … (the loop of R82). -/
def Memory.writeBytes (m : Memory) (a : Nat) : List Byte → Memory
  | [] => m
  | b :: bs => Memory.writeBytes (m.write a b) (a + 1) bs

/-! ### The Memory contract (R30), for a buffer of length `len`. `none` is OutOfBounds, the buffer unchanged. -/

/-- `set_read_cursor`: no bounds check at set time (R30). -/
def Buffer.setReadCursor (b : Buffer) (a : Nat) : Buffer := { b with rc := a }

/-- `set_write_cursor`: no bounds check at set time (R30). -/
def Buffer.setWriteCursor (b : Buffer) (a : Nat) : Buffer := { b with wc := a }

/-- `read_byte` at the read cursor (R30). -/
def Buffer.readByte (len : Nat) (b : Buffer) : Option (Byte × Buffer) :=
  if len ≤ b.rc then none else some (b.cells.read b.rc, b.setReadCursor (b.rc + 1))

/-- `read_word` at the read cursor, big-endian (R28, R30); the check is on unbounded naturals (R32; decision D18, log 9). -/
def Buffer.readWord (len : Nat) (b : Buffer) : Option (Word × Buffer) :=
  if len < b.rc + 2 then none
  else some (wordOfBytes (b.cells.read b.rc) (b.cells.read (b.rc + 1)), b.setReadCursor (b.rc + 2))

/-- `write_byte` at the write cursor (R30, R35). -/
def Buffer.writeByte (len : Nat) (v : Byte) (b : Buffer) : Option Buffer :=
  if len ≤ b.wc then none
  else some { b with cells := b.cells.write b.wc v, wc := b.wc + 1 }

/-- `write_word` at the write cursor, big-endian (R28, R30, R34, R35). -/
def Buffer.writeWord (len : Nat) (v : Word) (b : Buffer) : Option Buffer :=
  if len < b.wc + 2 then none
  else some { b with cells := (b.cells.write b.wc (hiByte v)).write (b.wc + 1) (loByte v), wc := b.wc + 2 }

/-- `bulk_write` of a byte sequence starting at 0 (R30, R82): all of it or nothing (decision D4, log 11). The write
cursor ends at the number of bytes written (R25). -/
def Buffer.bulkWrite (len : Nat) (bs : List Byte) (b : Buffer) : Option Buffer :=
  if len < bs.length then none
  else some { b with cells := b.cells.writeBytes 0 bs, wc := bs.length }

/-! ### Failures -/

/-- `raise K(info)` (R7): the operation stops here with kind `K`; every change made before this point stays (R99). This
is all there is of taking an exception: no handler, no saved register, no mode change (R100). -/
def raise : FailureKind → State → Fault
  | .registerNotFound, s => .registerNotFound s
  | .outOfBounds, s => .outOfBounds s
  | .unknownInstruction op, s => .unknownInstruction op s

/-- The failure kind the caller is given (R93). -/
def Fault.kind : Fault → FailureKind
  | .outOfBounds _ => .outOfBounds
  | .unknownInstruction op _ => .unknownInstruction op
  | .registerNotFound _ => .registerNotFound

/-- The state a further operation starts from (R101, R102): the one the failure left. There is no other return from a
failure, and no latch (decision D9, log 8). -/
def resume : Fault → State
  | .outOfBounds s => s
  | .unknownInstruction _ s => s
  | .registerNotFound s => s

/-- The outcome of a step from what its last action answers. -/
def outcome : Except Fault State → Host.Outcome State Fault Refusal
  | .ok s => .next s
  | .error f => .fault f

/-! ### The two buffers of the state -/

/-- Replace program memory. -/
def State.setM (s : State) (b : Buffer) : State := { s with m := b }

/-- Replace the register bank. -/
def State.setRb (s : State) (b : Buffer) : State := { s with rb := b }

/-- The byte `M[a]` (R7). -/
def State.byte (s : State) (a : Nat) : Byte := s.m.cells.read a

/-- `MemRead(a, 1)` (R31). -/
def memReadByte (a : Nat) (s : State) : Except Fault (Byte × State) :=
  let s := s.setM (s.m.setReadCursor a)
  match s.m.readByte s.memSize with
  | none => .error (raise .outOfBounds s)
  | some (b, m) => .ok (b, s.setM m)

/-- `MemRead(a, 2)` (R32). -/
def memReadWord (a : Nat) (s : State) : Except Fault (Word × State) :=
  let s := s.setM (s.m.setReadCursor a)
  match s.m.readWord s.memSize with
  | none => .error (raise .outOfBounds s)
  | some (w, m) => .ok (w, s.setM m)

/-- `MemWrite(a, 1, b)` (R35): of the contract; no instruction performs it. -/
def memWriteByte (a : Nat) (b : Byte) (s : State) : Except Fault State :=
  let s := s.setM (s.m.setWriteCursor a)
  match s.m.writeByte s.memSize b with
  | none => .error (raise .outOfBounds s)
  | some m => .ok (s.setM m)

/-- `MemWrite(a, 2, w)` (R35): of the contract; no instruction performs it. -/
def memWriteWord (a : Nat) (w : Word) (s : State) : Except Fault State :=
  let s := s.setM (s.m.setWriteCursor a)
  match s.m.writeWord s.memSize w with
  | none => .error (raise .outOfBounds s)
  | some m => .ok (s.setM m)

/-- `RegBankRead(o)` (R33). -/
def regBankRead (o : Nat) (s : State) : Except Fault (Word × State) :=
  let s := s.setRb (s.rb.setReadCursor o)
  match s.rb.readWord Config.regBankSize with
  | none => .error (raise .outOfBounds s)
  | some (w, rb) => .ok (w, s.setRb rb)

/-- `RegBankWrite(o, v)` (R34). -/
def regBankWrite (o : Nat) (v : Word) (s : State) : Except Fault State :=
  let s := s.setRb (s.rb.setWriteCursor o)
  match s.rb.writeWord Config.regBankSize v with
  | none => .error (raise .outOfBounds s)
  | some rb => .ok (s.setRb rb)

/-! ### Registers by name (R11, R84, R85) -/

/-- The slot index of a name (R11). -/
def regSlot : RegName → Nat
  | .ip => 0
  | .acc => 1
  | .r1 => 2
  | .r2 => 3
  | .r3 => 4
  | .r4 => 5
  | .r5 => 6
  | .r6 => 7
  | .r7 => 8
  | .r8 => 9

/-- The byte offset of a slot in the register bank: `2 x i` (R11, R50 b), on unbounded naturals. -/
def slotOffset (i : Nat) : Nat := 2 * i

/-- The word in slot `i` of the register bank: `x[i] = RB[2i] ++ RB[2i+1]` (R12). -/
def State.slot (s : State) (i : Nat) : Word :=
  wordOfBytes (s.rb.cells.read (slotOffset i)) (s.rb.cells.read (slotOffset i + 1))

/-- The content of a register (R10): the model's one read of a register without touching a cursor. -/
def State.reg (s : State) (r : RegName) : Word := s.slot (regSlot r)

/-- Name-based `get` (R59, R84). -/
def getReg (r : RegName) (s : State) : Except Fault (Word × State) := regBankRead (slotOffset (regSlot r)) s

/-- Name-based `set` (R59, R85). -/
def setReg (r : RegName) (v : Word) (s : State) : Except Fault State :=
  regBankWrite (slotOffset (regSlot r)) v s

/-! ### The two fetches -/

/-- `fetch()` (R59): the memory read comes before the write of `ip`, which wraps modulo 2^16 (decision D2, log 3). -/
def fetch (s : State) : Except Fault (Byte × State) := do
  let (a, s) ← getReg .ip s
  let (b, s) ← memReadByte a.toNat s
  let s ← setReg .ip (a + 1#16) s
  return (b, s)

/-- `fetch_word()` (R60): one word read, not two byte reads. -/
def fetchWord (s : State) : Except Fault (Word × State) := do
  let (a, s) ← getReg .ip s
  let (w, s) ← memReadWord a.toNat s
  let s ← setReg .ip (a + 2#16) s
  return (w, s)

end Sys2Proof.Machine
end

