-- ==== Sys2Proof/Machine/Flags.lean ====
section
/-! DEFINITION. The arithmetic law. There are no flags, condition codes or predicates (spec/10_state.md R20): the one
arithmetic operation records nothing beside its result. -/

namespace Sys2Proof.Machine

/-- `(va + vb) mod 2^16` (spec/42_add_reg_reg.md R71): the carry out of bit 15 is lost and nothing records it
(decision D1, log 2). -/
def add16 (va vb : Word) : Word := va + vb

end Sys2Proof.Machine
end

