-- ==== Sys2Proof/Machine/Operands.lean ====
section
/-! DEFINITION. Operand forms (spec/43_absent_families.md R76 names exactly three: immediate, register implied by the
opcode, register by slot index) and fetching a whole instruction (spec/40_fetch_decode_dispatch.md R61, R62). -/

namespace Sys2Proof.Machine

/-- Register by slot index (R50 b, R70, R73): the whole 8-bit index times 2 is the offset; the name lookup is
bypassed, and an index of 10 or more fails with OutOfBounds (decision D7, log 6). -/
def readSlot (i : Byte) (s : State) : Except Fault (Word × State) := regBankRead (slotOffset i.toNat) s

/-- The fetches of one step (R61, R62), in the spec's order: the opcode, the dispatch on it, then the operands the
selected arm fetches, one `fetch_word()` (R67, R68) or two `fetch()` calls, `A` first (R70; decision D6, log 5). The
instruction comes back whole, `ip` past it; an illegal opcode consumes no operand byte (R62, R63). -/
def fetchInstr (s : State) : Except Fault (Instr × State) := do
  let (op, s) ← fetch s
  match shapeOf op with
  | none => .error (raise (.unknownInstruction op) s)
  | some (.lit16 instr) =>
    let (w, s) ← fetchWord s
    return (instr w, s)
  | some (.slot2 instr) =>
    let (a, s) ← fetch s
    let (b, s) ← fetch s
    return (instr a b, s)

end Sys2Proof.Machine
end

