-- ==== Sys2Proof/Machine/AddRegReg.lean ====
section
/-! DEFINITION. Register addition (spec/42_add_reg_reg.md). -/

namespace Sys2Proof.Machine

/-- ADD_REG_REG (R70): after the fetches, slot `A` is read, then slot `B`, then the sum goes to `acc`. Slot 0 therefore
reads the next instruction's address and slot 1 the old `acc` (R72). -/
def execAddRegReg (a b : Byte) (s : State) : Host.Outcome State Fault Refusal :=
  outcome do
    let (va, s) ← readSlot a s
    let (vb, s) ← readSlot b s
    setReg .acc (add16 va vb) s

end Sys2Proof.Machine
end

