-- ==== Sys2Proof/Machine/MovLit.lean ====
section
/-! DEFINITION. The literal moves (spec/41_mov_lit.md). The state a meaning takes is the one after the fetches of its
instruction, `ip` past it (`fetchInstr`; log 15). -/

namespace Sys2Proof.Machine

/-- MOV_LIT_R1 (R67): `x[2] <- lit`. -/
def execMovLitR1 (lit : Word) (s : State) : Host.Outcome State Fault Refusal := outcome (setReg .r1 lit s)

/-- MOV_LIT_R2 (R68): `x[3] <- lit`. -/
def execMovLitR2 (lit : Word) (s : State) : Host.Outcome State Fault Refusal := outcome (setReg .r2 lit s)

end Sys2Proof.Machine
end

