-- ==== Sys2Proof/Machine/Dispatch.lean ====
section
/-! DEFINITION. One meaning for each instruction (spec/40_fetch_decode_dispatch.md R62). -/

namespace Sys2Proof.Machine

def exec (i : Instr) (s : State) : Host.Outcome State Fault Refusal :=
  match i with
  | .movLitR1 lit => Sys2Proof.Machine.execMovLitR1 lit s
  | .movLitR2 lit => Sys2Proof.Machine.execMovLitR2 lit s
  | .addRegReg a b => Sys2Proof.Machine.execAddRegReg a b s

end Sys2Proof.Machine
end

