-- ==== Sys2Proof/Machine/Step.lean ====
section
/-! DEFINITION. One step (spec/40_fetch_decode_dispatch.md R61), and placing one instruction where it is fetched. -/

namespace Sys2Proof.Machine

/-- `step()` (R61): the fetches, then the instruction's effect; the first failure met ends it (R98). -/
def step (s : State) : Host.Outcome State Fault Refusal :=
  match fetchInstr s with
  | .error f => .fault f
  | .ok (i, s) => exec i s

/-- `s` with the instruction of table word `w` at `ip` (log 14): bytes at `ip`, `ip + 1`, `ip + 2`, modulo 2^16 as
the fetches go (R17). Where the memory ends before `ip + 3` it becomes the largest one, so that the bytes exist.
Nothing else changes, the cursors included. -/
def State.withFetchWord (s : State) (nbits w : Nat) : State :=
  let ip := s.reg .ip
  let cells := ((tableBytes nbits w).zipIdx.foldl
    (fun m (b, k) => Memory.write m (ip + BitVec.ofNat 16 k).toNat b) s.m.cells)
  { s with
    memSize := if ip.toNat + 3 ≤ s.memSize then s.memSize else Config.maxMemSize
    m := { s.m with cells } }

end Sys2Proof.Machine
end

