-- ==== Sys2Proof/Machine/Execute.lean ====
section
/-! DEFINITION. The spec's own pseudocode of `execute` and `step` (spec/40_fetch_decode_dispatch.md R61, R62), in which
each arm fetches its own operands. `step` (Step.lean) fetches the instruction whole and then runs its meaning; that the
two are the same function is a statement (log 15). No operation of the model calls this file. -/

namespace Sys2Proof.Machine

/-- `execute(op)` (R62). -/
def executePseudo (op : Byte) (s : State) : Except Fault State :=
  if op = opMovLitR1 then do
    let (w, s) ← fetchWord s
    setReg .r1 w s
  else if op = opMovLitR2 then do
    let (w, s) ← fetchWord s
    setReg .r2 w s
  else if op = opAddRegReg then do
    let (a, s) ← fetch s
    let (b, s) ← fetch s
    let (va, s) ← regBankRead (2 * a.toNat) s
    let (vb, s) ← regBankRead (2 * b.toNat) s
    setReg .acc (BitVec.ofNat 16 ((va.toNat + vb.toNat) % 2 ^ 16)) s
  else .error (raise (.unknownInstruction op) s)

/-- `step()` (R61). -/
def stepPseudo (s : State) : Except Fault State := do
  let (op, s) ← fetch s
  executePseudo op s

end Sys2Proof.Machine
end

