-- ==== Sys2Proof/Machine/HostOps.lean ====
section
/-! DEFINITION. The operations the block exposes to the host (spec/44_host_operations.md R80 to R92), each one whole
transition (spec/00_scope.md R8), and the order in which they are legal (R88). -/

namespace Sys2Proof.Machine

/-! ### Register names as text (R87; decision D11, log 12) -/

/-- A name as it is spelled, in lower case (R11). -/
def regText : RegName → String
  | .ip => "ip"
  | .acc => "acc"
  | .r1 => "r1"
  | .r2 => "r2"
  | .r3 => "r3"
  | .r4 => "r4"
  | .r5 => "r5"
  | .r6 => "r6"
  | .r7 => "r7"
  | .r8 => "r8"

/-- The lookup in the name-to-offset mapping (R84, R87): ten legal names and nothing else. -/
def regNamed (name : String) : Option RegName := RegName.all.find? (fun r => decide (regText r = name))

/-! ### The operations -/

/-- `construct(MEM_SIZE)` (R81). It cannot fail; a capacity above 65536 is given no meaning (decision D3, log 16). -/
def construct (memSize : Nat) : Except Refusal State :=
  if memSize ≤ Config.maxMemSize then .ok (State.constructed memSize) else .error .capacityTooLarge

/-- `load(bytes)` (R82): atomic rejection with nothing changed, or the bytes at 0, 1, … and nothing else
(decisions D4, D21; log 11). -/
def load (p : List Byte) (s : State) : Except Fault State :=
  match s.m.bulkWrite s.memSize p with
  | none => .error (raise .outOfBounds s)
  | some m => .ok (s.setM m)

/-- `get_register(name)` (R84). -/
def getRegister (name : String) (s : State) : Except Fault (Word × State) :=
  match regNamed name with
  | none => .error (raise .registerNotFound s)
  | some r => getReg r s

/-- `set_register(name, v)` (R85). -/
def setRegister (name : String) (v : Word) (s : State) : Except Fault State :=
  match regNamed name with
  | none => .error (raise .registerNotFound s)
  | some r => setReg r v s

/-- An upper-case hexadecimal digit (R86). -/
def hexDigit (n : Nat) : Char := if n < 10 then Char.ofNat (48 + n) else Char.ofNat (55 + n)

/-- Exactly four upper-case hexadecimal digits (R86; decision D12, log 13). -/
def hexWord (v : Word) : String :=
  String.ofList ([12, 8, 4, 0].map (fun k => hexDigit (v.toNat / 2 ^ k % 16)))

/-- One line of `debug`: `name: 0xHHHH` and a line feed (R86; decision D12, log 13). -/
def debugLine (r : RegName) (v : Word) : String := regText r ++ ": 0x" ++ hexWord v ++ "\n"

/-- The lines of the registers `rs`, each read by name (R86). -/
def debugOf : List RegName → State → Except Fault (List String × State)
  | [], s => .ok ([], s)
  | r :: rs, s => do
    let (v, s) ← getReg r s
    let (lines, s) ← debugOf rs s
    return (debugLine r v :: lines, s)

/-- `debug()` (R86): ten lines in declared order. -/
def debug (s : State) : Except Fault (List String × State) := debugOf RegName.all s

/-! ### Whole transitions and their legal order -/

/-- The complete list of operations (R80). -/
inductive HostOp where
  | construct (memSize : Nat)
  | load (p : List Byte)
  | step
  | getRegister (name : String)
  | setRegister (name : String) (v : Word)
  | debug
  deriving DecidableEq, Repr

/-- What an operation returns to the host (R89, R112). -/
inductive Reply where
  | ok
  | value (v : Word)
  | lines (text : List String)
  | failed (kind : FailureKind)
  deriving DecidableEq, Repr

/-- A constructed block and the host's side of the protocol: whether the one load may still come (R88). The flag is
not state of the block (R26); log 11. -/
structure Session where
  block : State
  mayLoad : Bool
  deriving DecidableEq, Repr

/-- A transition that answers the block after it: success, or the failure kind with the state the failure left (R8,
R99). There is no latch: the next operation starts from that state (R101; decision D9, log 8). -/
def finish (mayLoad : Bool) : Except Fault (Reply × State) → Reply × Session
  | .ok (reply, s) => (reply, { block := s, mayLoad })
  | .error f => (.failed f.kind, { block := resume f, mayLoad })

/-- One operation of the host (R8, R88): from nothing constructed yet, or from a session. construct makes a new block
whatever came before (R92); load is legal once, before the first step (R82, R88); the other four always. -/
def perform (op : HostOp) (x : Option Session) : Except Refusal (Reply × Session) :=
  match op, x with
  | .construct n, _ =>
    match construct n with
    | .ok s => .ok (.ok, { block := s, mayLoad := true })
    | .error r => .error r
  | _, none => .error .notConstructed
  | .load p, some x =>
    if x.mayLoad then .ok (finish false ((load p x.block).map (fun s => (.ok, s))))
    else .error .loadNotProvided
  | .step, some x =>
    match step x.block with
    | .next s => .ok (.ok, { block := s, mayLoad := false })
    | .fault f => .ok (.failed f.kind, { block := resume f, mayLoad := false })
    | .refused r => .error r
  | .getRegister name, some x =>
    .ok (finish x.mayLoad ((getRegister name x.block).map (fun (v, s) => (.value v, s))))
  | .setRegister name v, some x =>
    .ok (finish x.mayLoad ((setRegister name v x.block).map (fun s => (.ok, s))))
  | .debug, some x =>
    .ok (finish x.mayLoad ((debug x.block).map (fun (text, s) => (.lines text, s))))

end Sys2Proof.Machine
end

