-- ==== Sys2Proof/Safety.lean ====
section
/-! DEFINITION. The terms the statements use: what the host can observe, frames, failure points, and safe runs. -/

namespace Sys2Proof.Machine

/-- `t` has the MEM_SIZE, every byte of program memory and every register of `s`, but for the registers in `rs`
(the frame of R65, R67, R68, R70, R99). The cursors are not spoken of: no operation can observe them (R25, R26). -/
def SameBut (rs : List RegName) (s t : State) : Prop :=
  t.memSize = s.memSize ∧ (∀ a, t.byte a = s.byte a) ∧ ∀ r, r ∉ rs → t.reg r = s.reg r

/-- Nothing that can be observed has changed (R26). -/
abbrev SameObservable (s t : State) : Prop := SameBut [] s t

/-- The cursors of program memory are where they were. -/
def SameMemoryCursors (s t : State) : Prop := t.m.rc = s.m.rc ∧ t.m.wc = s.m.wc

/-- `a0` of R99: `ip` at the start of the step. -/
def State.a0 (s : State) : Word := s.reg .ip

/-- `a1` of R99: `(a0 + 1) mod 2^16`. -/
def State.a1 (s : State) : Word := s.reg .ip + 1#16

/-- `a2` of R99: `(a0 + 2) mod 2^16`. -/
def State.a2 (s : State) : Word := s.reg .ip + 2#16

/-- `a3` of R99: `(a0 + 3) mod 2^16`. -/
def State.a3 (s : State) : Word := s.reg .ip + 3#16

/-- The byte of program memory at a 16-bit address: `M[a]`. -/
def State.at (s : State) (a : Word) : Byte := s.byte a.toNat

/-- The word of program memory at a 16-bit address: `M[a] ++ M[a+1]` (R28). -/
def State.wordAt (s : State) (a : Word) : Word := wordOfBytes (s.byte a.toNat) (s.byte (a.toNat + 1))

/-- The opcode byte of the next step is in memory and is `op` (no row 1 of R99). -/
def State.Opcode (s : State) (op : Byte) : Prop := s.a0.toNat < s.memSize ∧ s.at s.a0 = op

/-- An opcode byte outside the closed set (R51, R53). -/
def IllegalOpcode (op : Byte) : Prop := op ≠ 0x10#8 ∧ op ≠ 0x11#8 ∧ op ≠ 0x12#8

/-- The two bytes of a literal are in memory after the opcode (no row 3 of R99). -/
def State.LiteralFits (s : State) : Prop := s.a1.toNat + 2 ≤ s.memSize

/-- The two slot-index bytes are in memory after the opcode (no row 4 and no row 5 of R99). -/
def State.SlotsFit (s : State) : Prop := s.a1.toNat < s.memSize ∧ s.a2.toNat < s.memSize

/-- The operand bytes of `i` are where its fetches read them. -/
def State.OperandsFit (s : State) : Instr → Prop
  | .movLitR1 _ => s.LiteralFits
  | .movLitR2 _ => s.LiteralFits
  | .addRegReg _ _ => s.SlotsFit

/-- The three bytes the fetches of a step read when none of them fails, in the order they are read. -/
def State.instrBytes (s : State) : List Byte := [s.at s.a0, s.at s.a1, s.at s.a2]

/-- A step of `s` fails with kind `k` and leaves `ip` at `ip'` and everything else that can be observed as it was
(a row of R99). -/
def FailsAt (k : FailureKind) (ip' : Word) (s : State) : Prop :=
  ∃ f, step s = .fault f ∧ f.kind = k ∧ (resume f).reg .ip = ip' ∧ SameBut [.ip] s (resume f)

/-- The value a slot read of a step sees (R72): slot 0 is the next instruction's address, every other slot what it
was before the step. -/
def State.slotSeen (s : State) (i : Nat) : Word := if i = 0 then s.a3 else s.slot i

/-- `k` steps complete one after another and end in `t`: a run with no failure. -/
def RunsTo (k : Nat) (s t : State) : Prop := core.run k s = .next t

/-- A run of at most `k` steps meets a failure (R90: the run ends with the first step that fails). -/
def EndsWithin (k : Nat) (s : State) : Prop := ∃ f, core.run k s = .fault f

/-- Two outcomes of a step that the host cannot tell apart: the same result, and states that differ at most in
their cursors (R25, R89). -/
def SameOutcome : Host.Outcome State Fault Refusal → Host.Outcome State Fault Refusal → Prop
  | .next s, .next t => SameObservable s t
  | .fault f, .fault g => f.kind = g.kind ∧ SameObservable (resume f) (resume g)
  | .refused r, .refused q => r = q
  | _, _ => False

/-- The bounds no cursor ever passes (decision D8). -/
def CursorBounds (s : State) : Prop :=
  s.m.rc ≤ 65536 ∧ s.m.wc ≤ 65536 ∧ s.rb.rc ≤ 510 ∧ s.rb.wc ≤ 20

/-- The lines a register dump of `s` holds (R86). -/
def State.dump (s : State) : List String := RegName.all.map (fun r => debugLine r (s.reg r))

/-- The upper-case hexadecimal digits (R86; decision D12, log 13). -/
def upperHex (d : Fin 16) : Char :=
  match d.val with
  | 0 => '0'
  | 1 => '1'
  | 2 => '2'
  | 3 => '3'
  | 4 => '4'
  | 5 => '5'
  | 6 => '6'
  | 7 => '7'
  | 8 => '8'
  | 9 => '9'
  | 10 => 'A'
  | 11 => 'B'
  | 12 => 'C'
  | 13 => 'D'
  | 14 => 'E'
  | _ => 'F'

end Sys2Proof.Machine
end

