-- ==== Sys2Proof/Certificates/Slice0/Obligations.lean ====
section
/-! DEFINITION. The statements for the provers. A statement whose docstring names a decision D<n> of
spec/92_eei_decisions.md rests on the spec's own choice (its entry in the assumption log is named too). -/

open Sys2Proof Sys2Proof.Machine

/-! ### Encoding -/

/-- Words written out from the encodings of 30_encoding.md R47, R48, R51 (Scenario A's bytes) and what they stand for.
The three numerals are decision D5 (log 4). -/
def Obligations.SpecWordsDecode : Prop :=
  decode [0x10#8, 0x12#8, 0x34#8] = .instr (.movLitR1 0x1234#16) [] ∧
  decode [0x11#8, 0xAB#8, 0xCD#8] = .instr (.movLitR2 0xABCD#16) [] ∧
  decode [0x12#8, 0x02#8, 0x03#8] = .instr (.addRegReg 2#8 3#8) [] ∧
  decode [0x00#8] = .unknownOpcode 0x00#8 ∧
  decode [0x10#8, 0x12#8] = .truncated

/-- Decoding answers an instruction exactly on its encoding: no bit of an operand is dropped (R54), and no two byte
sequences stand for one instruction. -/
def Obligations.DecodeExactlyInvertsEncode : Prop :=
  ∀ (bs rest : List Byte) (i : Instr), decode bs = .instr i rest ↔ bs = encode i ++ rest

/-- The 24-bit view of the opcode table (R56), every operand at every value. The view is the spec's notation (log 14). -/
def Obligations.TableViewRoundTrip : Prop :=
  ∀ i : Instr, tableWord i < 2 ^ 24 ∧ decodeTableWord 24 (tableWord i) = some i

/-- R53, R63, R96. An opcode byte outside the set: the decoder refuses it with the byte, `execute` changes nothing, the
step fails carrying the byte with `ip` advanced by 1 (modulo 2^16) and nothing else changed; and UnknownInstruction
is raised in no other case. -/
def Obligations.IllegalOpcodeFailsCarryingTheByte : Prop :=
  (∀ (op : Byte) (rest : List Byte), decode (op :: rest) = .unknownOpcode op ↔ IllegalOpcode op) ∧
  (∀ (op : Byte) (s : State), IllegalOpcode op → executePseudo op s = .error (.unknownInstruction op s)) ∧
  (∀ s : State, s.a0.toNat < s.memSize → IllegalOpcode (s.at s.a0) →
    FailsAt (.unknownInstruction (s.at s.a0)) s.a1 s) ∧
  (∀ (s t : State) (op : Byte), step s = .fault (.unknownInstruction op t) →
    s.a0.toNat < s.memSize ∧ op = s.at s.a0 ∧ IllegalOpcode op)

/-! ### One step -/

/-- The bytes at `ip` decode to `i` and its operand bytes are in memory: the step is the meaning of `i` at the state
whose `ip` has moved past the three bytes (modulo 2^16, decision D2, log 3) and in which nothing else observable
has changed. -/
def Obligations.StepRunsDecodedInstruction : Prop :=
  ∀ (s : State) (i : Instr), s.wf = true → s.a0.toNat < s.memSize → decode s.instrBytes = .instr i [] →
    s.OperandsFit i → ∃ t, step s = exec i t ∧ t.reg .ip = s.a3 ∧ SameBut [.ip] s t

/-- R61, R62. The step is the spec's pseudocode: `fetch()`, then `execute(op)`, whose arms fetch their own operands. -/
def Obligations.StepIsFetchThenExecute : Prop :=
  ∀ s : State, step s = outcome (do let (op, s) ← fetch s; executePseudo op s)

/-- The instruction placed by withFetchWord is the one the next step runs (log 14: the model's own operation), for
every `ip` that leaves three bytes below the top of the address space. -/
def Obligations.PlacedInstructionRuns : Prop :=
  ∀ (s : State) (i : Instr), s.a0.toNat + 3 ≤ 65536 →
    ∃ t, step (s.withFetchWord 24 (tableWord i)) = exec i t ∧ t.reg .ip = s.a3 ∧ ∀ r, r ≠ .ip → t.reg r = s.reg r

/-- `fetch()` (40_fetch_decode_dispatch.md, R59): the byte at `ip`, `ip` one further (modulo 2^16, decision D2, log 3);
or OutOfBounds with nothing changed. -/
def Obligations.FetchReadsByteAndAdvances : Prop :=
  ∀ s : State,
    (s.a0.toNat < s.memSize →
      ∃ t, fetch s = .ok (s.at s.a0, t) ∧ t.reg .ip = s.a1 ∧ SameBut [.ip] s t) ∧
    (s.memSize ≤ s.a0.toNat → ∃ t, fetch s = .error (.outOfBounds t) ∧ SameObservable s t)

/-- `fetch_word()` (R60): the big-endian word at `ip`, `ip` two further (modulo 2^16, decision D2, log 3); or OutOfBounds
with nothing changed, one remaining byte not consumed. -/
def Obligations.FetchWordReadsWordAndAdvances : Prop :=
  ∀ s : State,
    (s.a0.toNat + 2 ≤ s.memSize →
      ∃ t, fetchWord s = .ok (s.wordAt s.a0, t) ∧ t.reg .ip = s.a2 ∧ SameBut [.ip] s t) ∧
    (s.memSize < s.a0.toNat + 2 → ∃ t, fetchWord s = .error (.outOfBounds t) ∧ SameObservable s t)

/-! ### Memory -/

/-- R31. -/
def Obligations.MemReadByteContract : Prop :=
  ∀ (a : Nat) (s : State),
    (a < s.memSize → ∃ t, memReadByte a s = .ok (s.byte a, t) ∧ t.m.rc = a + 1 ∧ t.m.wc = s.m.wc ∧
      t.m.cells = s.m.cells ∧ t.rb = s.rb ∧ t.memSize = s.memSize) ∧
    (s.memSize ≤ a → ∃ t, memReadByte a s = .error (.outOfBounds t) ∧ t.m.rc = a ∧ t.m.wc = s.m.wc ∧
      t.m.cells = s.m.cells ∧ t.rb = s.rb ∧ t.memSize = s.memSize)

/-- 20_memory.md R32 and R28: the word is `M[a] x 256 + M[a+1]`; the check is on unbounded naturals (decision D18, log 9),
and a read that fails reads nothing. -/
def Obligations.MemReadWordContract : Prop :=
  ∀ (a : Nat) (s : State),
    (a + 2 ≤ s.memSize → ∃ w t, memReadWord a s = .ok (w, t) ∧
      w.toNat = (s.byte a).toNat * 256 + (s.byte (a + 1)).toNat ∧ t.m.rc = a + 2 ∧ t.m.wc = s.m.wc ∧
      t.m.cells = s.m.cells ∧ t.rb = s.rb ∧ t.memSize = s.memSize) ∧
    (s.memSize < a + 2 → ∃ t, memReadWord a s = .error (.outOfBounds t) ∧ t.m.rc = a ∧ t.m.wc = s.m.wc ∧
      t.m.cells = s.m.cells ∧ t.rb = s.rb ∧ t.memSize = s.memSize)

/-- The mixed-width view of R29: after a word is read, byte reads give its high byte and its low byte. -/
def Obligations.ByteReadsSplitAWordRead : Prop :=
  ∀ (a : Nat) (w : Word) (s t : State), memReadWord a s = .ok (w, t) →
    (∃ u, memReadByte a t = .ok (hiByte w, u)) ∧ (∃ u, memReadByte (a + 1) t = .ok (loByte w, u))

/-- R35. The write primitives of the contract, with their bounds checks and the big-endian order, and that no operation
but the load (and a new construction) writes program memory. -/
def Obligations.ProgramMemoryWrites : Prop :=
  (∀ (a : Nat) (b : Byte) (s : State),
    (a < s.memSize → ∃ t, memWriteByte a b s = .ok t ∧ t.byte a = b ∧ (∀ x, x ≠ a → t.byte x = s.byte x) ∧
      t.m.wc = a + 1 ∧ t.m.rc = s.m.rc ∧ t.rb = s.rb ∧ t.memSize = s.memSize) ∧
    (s.memSize ≤ a → ∃ t, memWriteByte a b s = .error (.outOfBounds t) ∧ t.m.cells = s.m.cells ∧ t.m.wc = a ∧
      t.m.rc = s.m.rc ∧ t.rb = s.rb ∧ t.memSize = s.memSize)) ∧
  (∀ (a : Nat) (w : Word) (s : State),
    (a + 2 ≤ s.memSize → ∃ t, memWriteWord a w s = .ok t ∧ t.byte a = hiByte w ∧ t.byte (a + 1) = loByte w ∧
      (∀ x, x ≠ a → x ≠ a + 1 → t.byte x = s.byte x) ∧
      t.m.wc = a + 2 ∧ t.m.rc = s.m.rc ∧ t.rb = s.rb ∧ t.memSize = s.memSize) ∧
    (s.memSize < a + 2 → ∃ t, memWriteWord a w s = .error (.outOfBounds t) ∧ t.m.cells = s.m.cells ∧ t.m.wc = a ∧
      t.m.rc = s.m.rc ∧ t.rb = s.rb ∧ t.memSize = s.memSize)) ∧
  (∀ (op : HostOp) (x y : Session) (reply : Reply), perform op (some x) = .ok (reply, y) →
    (∀ p, op ≠ .load p) → (∀ n, op ≠ .construct n) → ∀ a, y.block.byte a = x.block.byte a)

/-- `RegBankRead(o)` of R33: the word at any offset whose two bytes are in the bank; for slot `i` that is the register's
word when `i <= 9` and OutOfBounds otherwise (decision D7, log 6). Only the read cursor moves. -/
def Obligations.RegBankReadContract : Prop :=
  (∀ (o : Nat) (s : State),
    (o + 2 ≤ 20 → ∃ t, regBankRead o s = .ok (wordOfBytes (s.rb.cells.read o) (s.rb.cells.read (o + 1)), t) ∧
      t.rb.rc = o + 2 ∧ t.rb.wc = s.rb.wc ∧ t.rb.cells = s.rb.cells ∧ t.m = s.m ∧ t.memSize = s.memSize) ∧
    (20 < o + 2 → ∃ t, regBankRead o s = .error (.outOfBounds t) ∧
      t.rb.rc = o ∧ t.rb.wc = s.rb.wc ∧ t.rb.cells = s.rb.cells ∧ t.m = s.m ∧ t.memSize = s.memSize)) ∧
  (∀ (r : RegName) (s : State), ∃ t, regBankRead (2 * regSlot r) s = .ok (s.reg r, t)) ∧
  (∀ (i : Nat) (s : State), 10 ≤ i → ∃ t, regBankRead (2 * i) s = .error (.outOfBounds t))

/-- `RegBankWrite(o, v)` of R34: the high byte at `o`, the low byte at `o + 1` (decision D19, log 10), no other byte; or
OutOfBounds with no byte written. Only the write cursor moves beside. -/
def Obligations.RegBankWriteContract : Prop :=
  ∀ (o : Nat) (v : Word) (s : State),
    (o + 2 ≤ 20 → ∃ t, regBankWrite o v s = .ok t ∧ t.rb.cells.read o = hiByte v ∧
      t.rb.cells.read (o + 1) = loByte v ∧
      (∀ x, x ≠ o → x ≠ o + 1 → t.rb.cells.read x = s.rb.cells.read x) ∧
      t.rb.wc = o + 2 ∧ t.rb.rc = s.rb.rc ∧ t.m = s.m ∧ t.memSize = s.memSize) ∧
    (20 < o + 2 → ∃ t, regBankWrite o v s = .error (.outOfBounds t) ∧ t.rb.cells = s.rb.cells ∧
      t.rb.wc = o ∧ t.rb.rc = s.rb.rc ∧ t.m = s.m ∧ t.memSize = s.memSize)

/-- The canonical form determines a buffer's content: two canonical memories that read alike are the same data (the
model's own convention, log 10). -/
def Obligations.CanonicalMemoryIsUnique : Prop :=
  ∀ (len : Nat) (m m' : Memory), m.wf len = true → m'.wf len = true → (∀ a, m.read a = m'.read a) → m = m'

/-! ### Registers -/

/-- R13: reading a register right after writing it gives the value written, no other register changes, and the
index-based read reaches the same storage (the last is an inference the spec marks as its own). -/
def Obligations.RegisterReadAfterWrite : Prop :=
  ∀ (r : RegName) (v : Word) (s : State), ∃ t, setReg r v s = .ok t ∧ (∃ u, getReg r t = .ok (v, u)) ∧
    (∃ u, readSlot (BitVec.ofNat 8 (regSlot r)) t = .ok (v, u)) ∧ SameBut [r] s t

/-- The names of R87: the ten strings of R11, each its own register, and nothing else (decision D11, log 12). -/
def Obligations.RegisterNamesAreTheTen : Prop :=
  (∀ (name : String) (r : RegName), regNamed name = some r ↔ name = regText r) ∧
  (∀ name : String, regNamed name = none ↔
    name ∉ ["ip", "acc", "r1", "r2", "r3", "r4", "r5", "r6", "r7", "r8"])

/-- `get_register` (R84): the named register's value with nothing observable changed, or RegisterNotFound with no change
at all (the shape of the result is decision D10, log 12). -/
def Obligations.GetRegisterReadsByName : Prop :=
  (∀ (r : RegName) (s : State), ∃ t, getRegister (regText r) s = .ok (s.reg r, t) ∧ SameObservable s t) ∧
  (∀ (name : String) (s : State), (∀ r, name ≠ regText r) → getRegister name s = .error (.registerNotFound s))

/-- `set_register` (44_host_operations.md, R85): any of the ten registers takes any value and nothing else changes; another
name fails with no change. An `ip` written at or beyond MEM_SIZE makes the next step fail (R17, an inference the spec
marks as its own). Nothing but `set_register` of `ip` (and a new construction) redirects execution: a step that completes
leaves `ip` at `a3`, one that fails at `a0`, `a1`, `a2` or `a3` (R17, R75; modulo 2^16 is decision D2, log 3), and every
other operation leaves `ip` as it is. -/
def Obligations.SetRegisterWritesByName : Prop :=
  (∀ (r : RegName) (v : Word) (s : State), ∃ t, setRegister (regText r) v s = .ok t ∧ t.reg r = v ∧ SameBut [r] s t) ∧
  (∀ (name : String) (v : Word) (s : State), (∀ r, name ≠ regText r) →
    setRegister name v s = .error (.registerNotFound s)) ∧
  (∀ (v : Word) (s t : State), setRegister "ip" v s = .ok t → s.memSize ≤ v.toNat → FailsAt .outOfBounds v t) ∧
  (∀ s t : State, step s = .next t → t.reg .ip = s.a3) ∧
  (∀ (s : State) (f : Fault), step s = .fault f →
    (resume f).reg .ip = s.a0 ∨ (resume f).reg .ip = s.a1 ∨ (resume f).reg .ip = s.a2 ∨ (resume f).reg .ip = s.a3) ∧
  (∀ (op : HostOp) (x y : Session) (reply : Reply), perform op (some x) = .ok (reply, y) →
    (∀ n, op ≠ .construct n) → (∀ v, op ≠ .setRegister "ip" v) →
    y.block.reg .ip = x.block.a0 ∨
    op = .step ∧ (y.block.reg .ip = x.block.a1 ∨ y.block.reg .ip = x.block.a2 ∨ y.block.reg .ip = x.block.a3))

/-- R94. RegisterNotFound is raised by get_register and set_register on a name outside the set, with no state change,
and by no other operation. -/
def Obligations.RegisterNotFoundOnlyFromNames : Prop :=
  (∀ (name : String) (v : Word) (s : State), (∀ r, name ≠ regText r) →
    getRegister name s = .error (.registerNotFound s) ∧ setRegister name v s = .error (.registerNotFound s)) ∧
  (∀ (op : HostOp) (x : Option Session) (y : Session), perform op x = .ok (.failed .registerNotFound, y) →
    ∃ name, (∀ r, name ≠ regText r) ∧ (op = .getRegister name ∨ ∃ v, op = .setRegister name v)) ∧
  (∀ s t : State, step s ≠ .fault (.registerNotFound t))

/-! ### Instructions -/

/-- MOV_LIT_R1's own effect (R67) on the state after its fetches: it completes for every literal and every state, `r1`
is the literal as it stands, and nothing else changes but the write cursor of the register bank. -/
def Obligations.MovLitR1WritesR1 : Prop :=
  ∀ (lit : Word) (s : State), ∃ t, exec (.movLitR1 lit) s = .next t ∧ t.reg .r1 = lit ∧ SameBut [.r1] s t ∧
    SameMemoryCursors s t ∧ t.rb.rc = s.rb.rc ∧ t.rb.wc = 6

/-- MOV_LIT_R2's own effect (R68): `r2` is the literal, and nothing else changes but the write cursor of the register bank. -/
def Obligations.MovLitR2WritesR2 : Prop :=
  ∀ (lit : Word) (s : State), ∃ t, exec (.movLitR2 lit) s = .next t ∧ t.reg .r2 = lit ∧ SameBut [.r2] s t ∧
    SameMemoryCursors s t ∧ t.rb.rc = s.rb.rc ∧ t.rb.wc = 8

/-- ADD_REG_REG's own effect (R70, R71) on the state after its fetches: with two slot indices 0 to 9 it completes, `acc` is
the sum modulo 2^16 (decision D1, log 2) of the two slots as they were, `acc` as a source included, and nothing else
changes but the cursors of the register bank. -/
def Obligations.AddRegRegWritesTheSum : Prop :=
  ∀ (a b : Byte) (s : State), a.toNat ≤ 9 → b.toNat ≤ 9 →
    ∃ t, exec (.addRegReg a b) s = .next t ∧
      (t.reg .acc).toNat = ((s.slot a.toNat).toNat + (s.slot b.toNat).toNat) % 2 ^ 16 ∧
      SameBut [.acc] s t ∧ SameMemoryCursors s t ∧ t.rb.rc = 2 * b.toNat + 2 ∧ t.rb.wc = 4

/-- R55. A literal move executes for every literal; ADD_REG_REG executes exactly when both slot indices are 0 to 9, and
fails with OutOfBounds otherwise, `acc` and everything else observable as it was. -/
def Obligations.LegalOperandsExactlyExecute : Prop :=
  (∀ (lit : Word) (s : State), (∃ t, exec (.movLitR1 lit) s = .next t) ∧ ∃ t, exec (.movLitR2 lit) s = .next t) ∧
  (∀ (a b : Byte) (s : State),
    (a.toNat ≤ 9 ∧ b.toNat ≤ 9 → ∃ t, exec (.addRegReg a b) s = .next t) ∧
    (10 ≤ a.toNat ∨ 10 ≤ b.toNat → ∃ t, exec (.addRegReg a b) s = .fault (.outOfBounds t) ∧ SameObservable s t))

/-- The whole step of a literal move (R67, R68): when the literal is in memory the destination is `M[a1] ++ M[a1+1]` and
`ip` is `a0 + 3` modulo 2^16 (decision D2, log 3); otherwise OutOfBounds with `ip` at `a0 + 1`. Nothing else changes. -/
def Obligations.LiteralMoveStep : Prop :=
  ∀ (s : State) (op : Byte) (r : RegName), (op = 0x10#8 ∧ r = .r1) ∨ (op = 0x11#8 ∧ r = .r2) → s.Opcode op →
    (s.a1.toNat + 2 ≤ s.memSize → ∃ t, step s = .next t ∧
      (t.reg r).toNat = (s.byte s.a1.toNat).toNat * 256 + (s.byte (s.a1.toNat + 1)).toNat ∧
      t.reg .ip = s.a3 ∧ SameBut [r, .ip] s t) ∧
    (s.memSize < s.a1.toNat + 2 → FailsAt .outOfBounds s.a1 s)

/-- The whole step of ADD_REG_REG when its slot indices are in memory and legal (R70, R72): `acc` is the sum modulo 2^16
(decision D1, log 2) of what the slot reads see, slot 0 being the next instruction's address (decision D6, log 5);
`ip` is `a0 + 3` modulo 2^16 (decision D2, log 3); nothing else changes. -/
def Obligations.AddRegRegStep : Prop :=
  ∀ s : State, s.Opcode 0x12#8 → s.SlotsFit → (s.at s.a1).toNat ≤ 9 → (s.at s.a2).toNat ≤ 9 →
    ∃ t, step s = .next t ∧
      (t.reg .acc).toNat =
        ((s.slotSeen (s.at s.a1).toNat).toNat + (s.slotSeen (s.at s.a2).toNat).toNat) % 2 ^ 16 ∧
      t.reg .ip = s.a3 ∧ SameBut [.acc, .ip] s t

/-- What slot reads see (R72 a, b): `ADD_REG_REG 0, 0` leaves twice the next instruction's address in `acc` (decisions D6
and D1, log 5, log 2), `ADD_REG_REG 1, 1` doubles `acc`. -/
def Obligations.SlotReadsSeeIpPastTheInstruction : Prop :=
  ∀ s : State, s.Opcode 0x12#8 → s.SlotsFit →
    (s.at s.a1 = 0#8 → s.at s.a2 = 0#8 → ∃ t, step s = .next t ∧ t.reg .acc = s.a3 + s.a3) ∧
    (s.at s.a1 = 1#8 → s.at s.a2 = 1#8 → ∃ t, step s = .next t ∧ t.reg .acc = s.reg .acc + s.reg .acc)

/-- The arithmetic law of R71 (decision D1, log 2): the exact sum up to 65535, the sum less 65536 above; commutative. -/
def Obligations.SumWrapsModulo65536 : Prop :=
  ∀ va vb : Word,
    (va.toNat + vb.toNat ≤ 65535 → (add16 va vb).toNat = va.toNat + vb.toNat) ∧
    (65536 ≤ va.toNat + vb.toNat → (add16 va vb).toNat = va.toNat + vb.toNat - 65536) ∧
    add16 va vb = add16 vb va

/-! ### Failures -/

/-- R99. The seven failure points in order, each with its kind and the `ip` it leaves, everything else observable
unchanged; if no row applies the step succeeds; and a failed host operation changes nothing at all. -/
def Obligations.FailureTable : Prop :=
  (∀ s : State,
    (s.memSize ≤ s.a0.toNat → FailsAt .outOfBounds s.a0 s) ∧
    (s.a0.toNat < s.memSize → IllegalOpcode (s.at s.a0) → FailsAt (.unknownInstruction (s.at s.a0)) s.a1 s) ∧
    (s.Opcode 0x10#8 ∨ s.Opcode 0x11#8 → s.memSize < s.a1.toNat + 2 → FailsAt .outOfBounds s.a1 s) ∧
    (s.Opcode 0x12#8 → s.memSize ≤ s.a1.toNat → FailsAt .outOfBounds s.a1 s) ∧
    (s.Opcode 0x12#8 → s.a1.toNat < s.memSize → s.memSize ≤ s.a2.toNat → FailsAt .outOfBounds s.a2 s) ∧
    (s.Opcode 0x12#8 → s.SlotsFit → 10 ≤ (s.at s.a1).toNat → FailsAt .outOfBounds s.a3 s) ∧
    (s.Opcode 0x12#8 → s.SlotsFit → (s.at s.a1).toNat ≤ 9 → 10 ≤ (s.at s.a2).toNat → FailsAt .outOfBounds s.a3 s) ∧
    ((s.Opcode 0x10#8 ∨ s.Opcode 0x11#8) ∧ s.a1.toNat + 2 ≤ s.memSize ∨
      s.Opcode 0x12#8 ∧ s.SlotsFit ∧ (s.at s.a1).toNat ≤ 9 ∧ (s.at s.a2).toNat ≤ 9 → ∃ t, step s = .next t)) ∧
  (∀ (name : String) (v : Word) (p : List Byte) (s : State) (f : Fault),
    getRegister name s = .error f ∨ setRegister name v s = .error f ∨ load p s = .error f → resume f = s)

/-- R95. Every cause of OutOfBounds: six in a step, one in a load, and no other operation of the host is ever answered
with it. -/
def Obligations.OutOfBoundsCauses : Prop :=
  (∀ s : State, (∃ t, step s = .fault (.outOfBounds t)) ↔
    s.memSize ≤ s.a0.toNat ∨
    (s.Opcode 0x10#8 ∨ s.Opcode 0x11#8) ∧ s.memSize < s.a1.toNat + 2 ∨
    s.Opcode 0x12#8 ∧ s.memSize ≤ s.a1.toNat ∨
    s.Opcode 0x12#8 ∧ s.a1.toNat < s.memSize ∧ s.memSize ≤ s.a2.toNat ∨
    s.Opcode 0x12#8 ∧ s.SlotsFit ∧ 10 ≤ (s.at s.a1).toNat ∨
    s.Opcode 0x12#8 ∧ s.SlotsFit ∧ (s.at s.a1).toNat ≤ 9 ∧ 10 ≤ (s.at s.a2).toNat) ∧
  (∀ (p : List Byte) (s : State), (∃ t, load p s = .error (.outOfBounds t)) ↔ s.memSize < p.length) ∧
  (∀ (op : HostOp) (x : Option Session) (y : Session), perform op x = .ok (.failed .outOfBounds, y) →
    ∃ z, x = some z ∧
      (op = .step ∧ (∃ t, step z.block = .fault (.outOfBounds t)) ∨
        ∃ p, op = .load p ∧ ∃ t, load p z.block = .error (.outOfBounds t)))

/-- A step is total (R66, R83, R112): it succeeds or fails with OutOfBounds or UnknownInstruction; it is never refused
and never answers RegisterNotFound. -/
def Obligations.StepIsTotal : Prop :=
  ∀ s : State, (∃ t, step s = .next t) ∨ (∃ t, step s = .fault (.outOfBounds t)) ∨
    ∃ op t, step s = .fault (.unknownInstruction op t)

/-- After an opcode fetch beyond the end of memory the same failure is met again on every further step (R102, row 1;
there is no latch, decision D9, log 8). -/
def Obligations.OpcodeFetchFailureRepeats : Prop :=
  ∀ (s : State) (f : Fault), s.memSize ≤ s.a0.toNat → step s = .fault f →
    SameObservable s (resume f) ∧ FailsAt .outOfBounds s.a0 (resume f)

/-- What a further step does after a failed ADD_REG_REG (R102, rows 5 to 7; decisions D9, D6, D7, log 8, 5, 6): after the
fetch of `B` failed it fails at its opcode fetch; after a slot read failed it starts at the next instruction. -/
def Obligations.StepAfterFailedAddition : Prop :=
  ∀ (s : State) (f : Fault), s.Opcode 0x12#8 → s.a1.toNat < s.memSize → step s = .fault f →
    (s.memSize ≤ s.a2.toNat → FailsAt .outOfBounds s.a2 (resume f)) ∧
    (s.a2.toNat < s.memSize → (resume f).a0 = s.a3 ∧ (resume f).reg .acc = s.reg .acc)

/-! ### Frames and whole-machine rules -/

/-- What a step can change (R14, R65): a step that completes moves `ip` by 3 (modulo 2^16, decision D2, log 3) and writes
exactly one of `r1`, `r2`, `acc`; one that fails changes `ip` alone. MEM_SIZE, every byte of program memory and `r3` to
`r8` are changed by no step. -/
def Obligations.StepFrame : Prop :=
  (∀ s t : State, step s = .next t → t.reg .ip = s.a3 ∧
    (SameBut [.ip, .r1] s t ∨ SameBut [.ip, .r2] s t ∨ SameBut [.ip, .acc] s t)) ∧
  (∀ (s : State) (f : Fault), step s = .fault f → SameBut [.ip] s (resume f) ∧
    ((resume f).reg .ip = s.a0 ∨ (resume f).reg .ip = s.a1 ∨ (resume f).reg .ip = s.a2 ∨ (resume f).reg .ip = s.a3))

/-- R64. The result of a step is a function of the bytes of `M` and the registers of `RB` alone: two states that agree on
those, whatever their cursors hold, give the same result and agree on those afterwards. -/
def Obligations.StepDependsOnMemoryAndRegistersOnly : Prop :=
  ∀ s s' : State, SameObservable s s' → SameOutcome (step s) (step s')

/-- The properties (d) and (e) of R69, inferences the spec marks as its own: a literal move reads no register but `ip`.
Two states that agree on `ip` and program memory, with a literal move at `ip`, both complete with the same destination
value or both fail alike, whatever the other registers hold. -/
def Obligations.LiteralMoveReadsNoGeneralRegister : Prop :=
  ∀ (s s' : State) (op : Byte) (r : RegName), (op = 0x10#8 ∧ r = .r1) ∨ (op = 0x11#8 ∧ r = .r2) → s.Opcode op →
    s'.memSize = s.memSize → (∀ a, s'.byte a = s.byte a) → s'.reg .ip = s.reg .ip →
    (∃ t t', step s = .next t ∧ step s' = .next t' ∧ t'.reg r = t.reg r ∧ t'.reg .ip = t.reg .ip) ∨
    (∃ f f', step s = .fault f ∧ step s' = .fault f' ∧ f'.kind = f.kind ∧
      (resume f').reg .ip = (resume f).reg .ip)

/-! ### Reset and invariants -/

/-- What construction leaves (R27, R114), whatever MEM_SIZE, and at reset (whose MEM_SIZE 65536 is the model's choice,
log 1): every byte and every register zero, every cursor 0 (decision D8, log 7); and the first step on it (R116) fails
with UnknownInstruction(0x00) and `ip` 1, or with OutOfBounds and `ip` 0 when there is no memory. -/
def Obligations.ResetState : Prop :=
  State.reset = State.constructed 65536 ∧
  (∀ n : Nat, (State.constructed n).memSize = n ∧ (∀ a, (State.constructed n).byte a = 0#8) ∧
    (∀ r, (State.constructed n).reg r = 0#16) ∧
    (State.constructed n).m.rc = 0 ∧ (State.constructed n).m.wc = 0 ∧
    (State.constructed n).rb.rc = 0 ∧ (State.constructed n).rb.wc = 0) ∧
  (∀ n : Nat, 1 ≤ n → FailsAt (.unknownInstruction 0x00#8) 1#16 (State.constructed n)) ∧
  FailsAt .outOfBounds 0#16 (State.constructed 0)

/-- R81. Construction with any capacity of R5 succeeds: MEM_SIZE bytes and 20 bytes, all zero, so all ten registers zero;
it does not depend on what came before; and no other operation resizes the memory. -/
def Obligations.ConstructZeroFills : Prop :=
  (∀ (n : Nat) (x : Option Session), n ≤ 65536 → ∃ s, perform (.construct n) x = .ok (.ok, ⟨s, true⟩) ∧
    s.memSize = n ∧ (∀ a, s.byte a = 0#8) ∧ (∀ o, s.rb.cells.read o = 0#8) ∧ (∀ r, s.reg r = 0#16)) ∧
  (∀ (op : HostOp) (x y : Session) (reply : Reply), perform op (some x) = .ok (reply, y) →
    (∀ n, op ≠ .construct n) → y.block.memSize = x.block.memSize)

/-- The invariant State.wf (MEM_SIZE at most 65536; both buffers in canonical form, nothing listed beyond their end)
holds at reset and after every construction of R5. -/
def Obligations.ResetWellFormed : Prop :=
  State.reset.wf = true ∧ ∀ n : Nat, n ≤ 65536 → (State.constructed n).wf = true

/-- Every step keeps the invariant: in the state after a step that completes and in the state a failed step leaves. -/
def Obligations.StepKeepsWellFormed : Prop :=
  ∀ s : State, s.wf = true →
    (∀ t, step s = .next t → t.wf = true) ∧ ∀ f, step s = .fault f → (resume f).wf = true

/-- Every operation of the host keeps the invariant, a load included. -/
def Obligations.HostOperationsKeepWellFormed : Prop :=
  ∀ (op : HostOp) (x y : Session) (reply : Reply), x.block.wf = true → perform op (some x) = .ok (reply, y) →
    y.block.wf = true

/-- No cursor ever passes the bounds decision D8 gives (65536 for `M`, 510 for the reads and 20 for the writes of `RB`;
log 7): every operation of the host keeps them. -/
def Obligations.CursorsStayInBounds : Prop :=
  ∀ (op : HostOp) (x y : Session) (reply : Reply), x.block.memSize ≤ 65536 → CursorBounds x.block →
    perform op (some x) = .ok (reply, y) → CursorBounds y.block

/-! ### Runs -/

/-- Execution is straight-line (R75): after `k` completed steps `ip` has advanced by `3k` modulo 2^16 (decision D2, log 3),
and MEM_SIZE, program memory and every register but `ip`, `acc`, `r1` and `r2` are as at the start. -/
def Obligations.RunsAreStraightLine : Prop :=
  ∀ (k : Nat) (s t : State), RunsTo k s t →
    t.reg .ip = s.reg .ip + BitVec.ofNat 16 (3 * k) ∧ SameBut [.ip, .acc, .r1, .r2] s t

/-- Every run ends (R78, which marks this bound as its own inference and rests it on decisions D2 and D18, log 3 and 9):
from every state some step among the first 65536 fails. -/
def Obligations.EveryRunEnds : Prop :=
  ∀ s : State, s.memSize ≤ 65536 → ∃ k, k ≤ 65536 ∧ EndsWithin k s

/-- The closer bound of R78, which the spec marks as its own inference: with MEM_SIZE below 65536 a run started at
`ip = 0` ends within `floor(MEM_SIZE / 3) + 1` steps, at the end of memory or earlier (an illegal opcode, a slot index of
10 or more). -/
def Obligations.RunFromZeroEndsInBoundedSteps : Prop :=
  ∀ s : State, s.memSize < 65536 → s.reg .ip = 0#16 → EndsWithin (s.memSize / 3 + 1) s

/-! ### The host interface -/

/-- `load` (R82; decisions D4 and D21, log 11): all bytes from address 0 and nothing else, or OutOfBounds with nothing
changed. -/
def Obligations.LoadWritesAllOrNothing : Prop :=
  ∀ (p : List Byte) (s : State),
    (p.length ≤ s.memSize → ∃ t, load p s = .ok t ∧ (∀ k, (h : k < p.length) → t.byte k = p[k]) ∧
      (∀ a, p.length ≤ a → t.byte a = s.byte a) ∧ t.rb = s.rb ∧ t.memSize = s.memSize ∧ t.m.wc = p.length) ∧
    (s.memSize < p.length → load p s = .error (.outOfBounds s))

/-- `debug` (R86; decisions D12 and D22, log 13): ten lines, the ten registers in declared order, each the name, a colon, a
space, `0x`, four digits and a line feed; it cannot fail, changes nothing observable, and a second call gives the same
lines. The four digits are upper-case hexadecimal and are the value's, the most significant first. -/
def Obligations.DebugDumpsTheTenRegisters : Prop :=
  (∀ s : State, ∃ lines t, debug s = .ok (lines, t) ∧ SameObservable s t ∧ (∃ u, debug t = .ok (lines, u)) ∧
    lines =
      ["ip: 0x" ++ hexWord (s.reg .ip) ++ "\n",
       "acc: 0x" ++ hexWord (s.reg .acc) ++ "\n",
       "r1: 0x" ++ hexWord (s.reg .r1) ++ "\n",
       "r2: 0x" ++ hexWord (s.reg .r2) ++ "\n",
       "r3: 0x" ++ hexWord (s.reg .r3) ++ "\n",
       "r4: 0x" ++ hexWord (s.reg .r4) ++ "\n",
       "r5: 0x" ++ hexWord (s.reg .r5) ++ "\n",
       "r6: 0x" ++ hexWord (s.reg .r6) ++ "\n",
       "r7: 0x" ++ hexWord (s.reg .r7) ++ "\n",
       "r8: 0x" ++ hexWord (s.reg .r8) ++ "\n"]) ∧
  (∀ v : Word, ∃ a b c d : Fin 16, v.toNat = 4096 * a.val + 256 * b.val + 16 * c.val + d.val ∧
    hexWord v = String.ofList [upperHex a, upperHex b, upperHex c, upperHex d])

/-- The legal order of R88 (decision D13, log 11): nothing before construct; at most one load, before the first step; the
other four in any state, a failed step included (R101; decision D9, log 8). That a FAILED load uses up the one load, and
that a FAILED step ends the time of the load, is the model's choice and not R88's (DESIGN CHOICE, log 11). -/
def Obligations.HostOperationOrder : Prop :=
  (∀ op : HostOp, (∀ n, op ≠ .construct n) → perform op none = .error .notConstructed) ∧
  (∀ (p : List Byte) (s : State), perform (.load p) (some ⟨s, false⟩) = .error .loadNotProvided) ∧
  (∀ (p : List Byte) (s : State), ∃ reply t, perform (.load p) (some ⟨s, true⟩) = .ok (reply, ⟨t, false⟩)) ∧
  (∀ (s : State) (b : Bool), ∃ reply t, perform .step (some ⟨s, b⟩) = .ok (reply, ⟨t, false⟩)) ∧
  (∀ (op : HostOp) (s : State) (b : Bool), (op = .debug ∨ (∃ name, op = .getRegister name) ∨
      ∃ name v, op = .setRegister name v) → ∃ reply t, perform op (some ⟨s, b⟩) = .ok (reply, ⟨t, b⟩)) ∧
  (∀ (s : State) (f : Fault) (b : Bool), step s = .fault f →
    perform .step (some ⟨s, b⟩) = .ok (.failed f.kind, ⟨resume f, false⟩))

/-- A host write is seen by the next step with nothing else needed (R91, an inference the spec marks as its own): an
ADD_REG_REG at `ip` that names the written register, `ip` apart, as `A` or as `B` adds the written value; a write of `ip`
moves the next fetch, and slot 0 then reads as the written value plus 3, not as the written value (R72 a). The sums and
the advance wrap (decisions D1 and D2, log 2 and 3), slot 0 is read after the fetches (decision D6, log 5). -/
def Obligations.HostWritesAreSeenByTheNextStep : Prop :=
  (∀ (r : RegName) (v : Word) (s t : State), setRegister (regText r) v s = .ok t → r ≠ .ip →
    t.Opcode 0x12#8 → t.SlotsFit →
    ((t.at t.a1).toNat = regSlot r → (t.at t.a2).toNat ≤ 9 →
      ∃ u, step t = .next u ∧ u.reg .acc = v + t.slotSeen (t.at t.a2).toNat) ∧
    ((t.at t.a1).toNat ≤ 9 → (t.at t.a2).toNat = regSlot r →
      ∃ u, step t = .next u ∧ u.reg .acc = t.slotSeen (t.at t.a1).toNat + v) ∧
    ((t.at t.a1).toNat = regSlot r → (t.at t.a2).toNat = regSlot r →
      ∃ u, step t = .next u ∧ u.reg .acc = v + v)) ∧
  (∀ (v : Word) (s t : State), setRegister "ip" v s = .ok t →
    (v.toNat < s.memSize → ∃ u, fetch t = .ok (s.at v, u)) ∧
    (t.Opcode 0x12#8 → t.SlotsFit → t.at t.a1 = 0#8 → t.at t.a2 = 0#8 →
      ∃ u, step t = .next u ∧ u.reg .acc = (v + 3#16) + (v + 3#16) ∧ u.reg .ip = v + 3#16))
end

