-- ==== Sys2Proof/Laws/Decode.lean ====
section
/-! SUPPORT. The laws of the byte order and of the opcode map. -/

namespace Sys2Proof

/-- `M[a] x 256 + M[a+1]` (R28). -/
theorem wordOfBytes_toNat (hi lo : Byte) : (wordOfBytes hi lo).toNat = hi.toNat * 256 + lo.toNat := by
  unfold wordOfBytes
  rw [BitVec.toNat_append, ← Nat.shiftLeft_add_eq_or_of_lt lo.isLt, Nat.shiftLeft_eq]

theorem hiByte_toNat (w : Word) : (hiByte w).toNat = w.toNat / 256 := by
  have := w.isLt
  simp only [hiByte, BitVec.extractLsb'_toNat, Nat.shiftRight_eq_div_pow]
  omega

theorem loByte_toNat (w : Word) : (loByte w).toNat = w.toNat % 256 := by
  simp [loByte, BitVec.extractLsb'_toNat]

@[simp] theorem wordOfBytes_hi_lo (w : Word) : wordOfBytes (hiByte w) (loByte w) = w := by
  apply BitVec.eq_of_toNat_eq
  rw [wordOfBytes_toNat, hiByte_toNat, loByte_toNat]
  omega

@[simp] theorem hiByte_wordOfBytes (hi lo : Byte) : hiByte (wordOfBytes hi lo) = hi := by
  apply BitVec.eq_of_toNat_eq
  rw [hiByte_toNat, wordOfBytes_toNat]
  omega

@[simp] theorem loByte_wordOfBytes (hi lo : Byte) : loByte (wordOfBytes hi lo) = lo := by
  apply BitVec.eq_of_toNat_eq
  rw [loByte_toNat, wordOfBytes_toNat]
  omega

@[simp] theorem shapeOf_movLitR1 : shapeOf opMovLitR1 = some (.lit16 .movLitR1) := rfl
@[simp] theorem shapeOf_movLitR2 : shapeOf opMovLitR2 = some (.lit16 .movLitR2) := rfl
@[simp] theorem shapeOf_addRegReg : shapeOf opAddRegReg = some (.slot2 .addRegReg) := rfl

/-- The opcode map has three entries and nothing else (R51, R53). -/
theorem shapeOf_cases (op : Byte) :
    (op = opMovLitR1 ∧ shapeOf op = some (.lit16 .movLitR1)) ∨
    (op = opMovLitR2 ∧ shapeOf op = some (.lit16 .movLitR2)) ∨
    (op = opAddRegReg ∧ shapeOf op = some (.slot2 .addRegReg)) ∨
    (op ≠ opMovLitR1 ∧ op ≠ opMovLitR2 ∧ op ≠ opAddRegReg ∧ shapeOf op = none) := by
  unfold shapeOf
  split
  · exact .inl ⟨‹_›, rfl⟩
  · split
    · exact .inr (.inl ⟨‹_›, rfl⟩)
    · split
      · exact .inr (.inr (.inl ⟨‹_›, rfl⟩))
      · exact .inr (.inr (.inr ⟨‹_›, ‹_›, ‹_›, rfl⟩))

/-- Decoding dispatches on the first byte (R49). -/
theorem decode_cons (op : Byte) (rest : List Byte) :
    decode (op :: rest) =
      match shapeOf op with
      | none => .unknownOpcode op
      | some shape =>
        match shape, rest with
        | .lit16 instr, hi :: lo :: rest => .instr (instr (wordOfBytes hi lo)) rest
        | .slot2 instr, a :: b :: rest => .instr (instr a b) rest
        | _, _ => .truncated := rfl

/-- The table's view lists the bytes of the encoding (R56). -/
theorem tableBytes_of_bytes (a b c : Byte) :
    tableBytes 24 ((a.toNat * 256 + b.toNat) * 256 + c.toNat) = [a, b, c] := by
  have ha := a.isLt
  have hb := b.isLt
  have hc := c.isLt
  have e : ∀ w, tableBytes 24 w =
      [BitVec.ofNat 8 (w >>> 16), BitVec.ofNat 8 (w >>> 8), BitVec.ofNat 8 (w >>> 0)] := fun _ => rfl
  rw [e]
  congr 1
  · apply BitVec.eq_of_toNat_eq
    simp only [BitVec.toNat_ofNat, Nat.shiftRight_eq_div_pow]
    omega
  congr 1
  · apply BitVec.eq_of_toNat_eq
    simp only [BitVec.toNat_ofNat, Nat.shiftRight_eq_div_pow]
    omega
  congr 1
  · apply BitVec.eq_of_toNat_eq
    simp only [BitVec.toNat_ofNat, Nat.shiftRight_eq_div_pow]
    omega

theorem tableBytes_tableWord (i : Instr) : tableBytes 24 (tableWord i) = encode i := by
  cases i <;> simpa [tableWord, encode] using tableBytes_of_bytes _ _ _

end Sys2Proof
end

