-- ==== Sys2Proof/Laws/Memory.lean ====
section
/-! SUPPORT. The laws of a buffer's bytes: read after write, the canonical form, and that it determines the list. -/

namespace Sys2Proof.Machine

@[simp] theorem Memory.read_nil (a : Nat) : Memory.read [] a = 0#8 := rfl

theorem Memory.read_cons (k : Nat) (b : Byte) (m : Memory) (a : Nat) :
    Memory.read ((k, b) :: m) a = if k = a then b else Memory.read m a := rfl

/-- Inserting at an address `m` does not list changes the read at that address only. -/
theorem Memory.read_insert (k : Nat) (b : Byte) (a : Nat) (m : Memory) (h : ∀ c ∈ m, c.1 ≠ k) :
    Memory.read (Memory.insert (k, b) m) a = if k = a then b else Memory.read m a := by
  induction m with
  | nil => rfl
  | cons d m ih =>
    obtain ⟨dk, db⟩ := d
    have hd : dk ≠ k := h (dk, db) (by simp)
    have ih := ih (fun c hc => h c (by simp [hc]))
    by_cases hk : k < dk
    · simp [Memory.insert, hk, Memory.read_cons]
    · by_cases ha : dk = a
      · subst ha; simp [Memory.insert, hk, Memory.read_cons, Ne.symm hd]
      · simp [Memory.insert, hk, Memory.read_cons, ha, ih]

theorem Memory.read_filter (k a : Nat) (m : Memory) :
    Memory.read (m.filter (fun c => c.1 != k)) a = if k = a then 0#8 else Memory.read m a := by
  induction m with
  | nil => simp
  | cons d m ih =>
    obtain ⟨dk, db⟩ := d
    by_cases hk : dk = k
    · subst hk
      by_cases ha : dk = a <;> simp [Memory.read_cons, ha] at ih ⊢ <;> simp [ih]
    · by_cases ha : dk = a
      · subst ha; simp [hk, Memory.read_cons, Ne.symm hk]
      · simp [hk, Memory.read_cons, ha, ih]

/-- Read after write, for any list: the byte written at its address, every other byte as before. -/
@[simp] theorem Memory.read_write (m : Memory) (k : Nat) (b : Byte) (a : Nat) :
    (m.write k b).read a = if k = a then b else m.read a := by
  unfold Memory.write
  by_cases hb : b = Memory.unlisted
  · subst hb; simp [Memory.read_filter, Memory.unlisted]
  · simp only [hb, if_false]
    rw [Memory.read_insert _ _ _ _ (by simp), Memory.read_filter]
    by_cases h : k = a <;> simp [h]

/-- `writeBytes` stores byte `k` of the sequence at `a + k` and nothing else (R82). -/
theorem Memory.read_writeBytes (bs : List Byte) (m : Memory) (a x : Nat) :
    (m.writeBytes a bs).read x =
      if h : a ≤ x ∧ x - a < bs.length then bs[x - a] else m.read x := by
  induction bs generalizing m a with
  | nil => simp [Memory.writeBytes]
  | cons b bs ih =>
    rw [Memory.writeBytes, ih]
    by_cases hx : x < a
    · rw [dif_neg (by omega), dif_neg (by omega), Memory.read_write, if_neg (by omega)]
    · by_cases ha : a = x
      · subst ha; simp
      · have hs : x - a = (x - (a + 1)) + 1 := by omega
        by_cases hl : x - (a + 1) < bs.length
        · simp [hl, show a + 1 ≤ x by omega, show a ≤ x by omega, hs]
        · simp [hl, ha, hs]

/-- The canonical form in the words of lists. -/
theorem Memory.wf_iff (len : Nat) (m : Memory) :
    m.wf len = true ↔ m.Pairwise (fun c d => c.1 < d.1) ∧ ∀ c ∈ m, c.1 < len ∧ c.2 ≠ 0#8 := by
  induction m with
  | nil => simp [Memory.wf]
  | cons c m ih =>
    obtain ⟨a, b⟩ := c
    simp only [Memory.wf, Memory.unlisted, Bool.and_eq_true, decide_eq_true_eq, bne_iff_ne, List.all_eq_true, ih,
      List.pairwise_cons, List.mem_cons, forall_eq_or_imp]
    tauto

@[simp] theorem Memory.wf_nil (len : Nat) : Memory.wf len [] = true := rfl

theorem Memory.mem_insert (c d : Host.Cell) (m : Memory) : d ∈ Memory.insert c m ↔ d = c ∨ d ∈ m := by
  induction m with
  | nil => simp [Memory.insert]
  | cons e m ih =>
    unfold Memory.insert
    split <;> simp [ih]
    tauto

theorem Memory.pairwise_insert (c : Host.Cell) (m : Memory) (h : m.Pairwise (fun c d => c.1 < d.1))
    (hn : ∀ d ∈ m, d.1 ≠ c.1) : (Memory.insert c m).Pairwise (fun c d => c.1 < d.1) := by
  induction m with
  | nil => simp [Memory.insert]
  | cons e m ih =>
    rw [List.pairwise_cons] at h
    have he := hn e (by simp)
    unfold Memory.insert
    split
    · rename_i hlt
      refine List.pairwise_cons.2 ⟨fun d hd => ?_, List.pairwise_cons.2 h⟩
      rcases List.mem_cons.1 hd with rfl | hd
      · exact hlt
      · exact Nat.lt_trans hlt (h.1 d hd)
    · refine List.pairwise_cons.2 ⟨fun d hd => ?_, ih h.2 (fun d hd => hn d (by simp [hd]))⟩
      rcases (Memory.mem_insert _ _ _).1 hd with rfl | hd
      · omega
      · exact h.1 d hd

/-- A write inside the buffer keeps the canonical form. -/
theorem Memory.wf_write (len : Nat) (m : Memory) (a : Nat) (b : Byte) (h : m.wf len = true) (ha : a < len) :
    (m.write a b).wf len = true := by
  rw [Memory.wf_iff] at h ⊢
  have hp := h.1.filter (fun c => c.1 != a)
  have hm : ∀ c ∈ m.filter (fun c => c.1 != a), c.1 < len ∧ c.2 ≠ 0#8 := fun c hc => h.2 c (List.mem_filter.1 hc).1
  unfold Memory.write
  by_cases hb : b = Memory.unlisted
  · simp only [hb, if_true]; exact ⟨hp, hm⟩
  · simp only [hb, if_false]
    refine ⟨Memory.pairwise_insert _ _ hp (by simp), fun c hc => ?_⟩
    rcases (Memory.mem_insert _ _ _).1 hc with rfl | hc
    · exact ⟨ha, hb⟩
    · exact hm c hc

theorem Memory.wf_writeBytes (len : Nat) (bs : List Byte) (m : Memory) (a : Nat) (h : m.wf len = true)
    (ha : a + bs.length ≤ len) : (m.writeBytes a bs).wf len = true := by
  induction bs generalizing m a with
  | nil => exact h
  | cons b bs ih =>
    rw [List.length_cons] at ha
    exact ih _ _ (Memory.wf_write _ _ _ _ h (by omega)) (by omega)

/-- A longer buffer holds every content of a shorter one. -/
theorem Memory.wf_mono (len len' : Nat) (m : Memory) (h : m.wf len = true) (hl : len ≤ len') : m.wf len' = true := by
  rw [Memory.wf_iff] at h ⊢
  exact ⟨h.1, fun c hc => ⟨Nat.lt_of_lt_of_le (h.2 c hc).1 hl, (h.2 c hc).2⟩⟩

/-- Nothing is read at an address below all those listed. -/
theorem Memory.read_of_lt (m : Memory) (a : Nat) (h : ∀ c ∈ m, a < c.1) : m.read a = 0#8 := by
  induction m with
  | nil => rfl
  | cons c m ih =>
    have := h c (by simp)
    rw [Memory.read, if_neg (by omega)]
    exact ih (fun d hd => h d (by simp [hd]))

/-- A buffer of `len` bytes lists nothing from `len` up. -/
theorem Memory.read_of_le (len : Nat) (m : Memory) (a : Nat) (h : m.wf len = true) (ha : len ≤ a) : m.read a = 0#8 := by
  rw [Memory.wf_iff] at h
  induction m with
  | nil => rfl
  | cons c m ih =>
    have := (h.2 c (by simp)).1
    rw [Memory.read, if_neg (by omega)]
    exact ih ⟨(List.pairwise_cons.1 h.1).2, fun d hd => h.2 d (by simp [hd])⟩

end Sys2Proof.Machine
end

