-- ==== Sys2Proof/Laws/State.lean ====
section
/-! SUPPORT. One lemma for each field of each update of a buffer and of the state, true by rfl. -/

namespace Sys2Proof.Machine

@[simp] theorem Buffer.setReadCursor_cells (b : Buffer) (a : Nat) : (b.setReadCursor a).cells = b.cells := rfl
@[simp] theorem Buffer.setReadCursor_rc (b : Buffer) (a : Nat) : (b.setReadCursor a).rc = a := rfl
@[simp] theorem Buffer.setReadCursor_wc (b : Buffer) (a : Nat) : (b.setReadCursor a).wc = b.wc := rfl
@[simp] theorem Buffer.setWriteCursor_cells (b : Buffer) (a : Nat) : (b.setWriteCursor a).cells = b.cells := rfl
@[simp] theorem Buffer.setWriteCursor_rc (b : Buffer) (a : Nat) : (b.setWriteCursor a).rc = b.rc := rfl
@[simp] theorem Buffer.setWriteCursor_wc (b : Buffer) (a : Nat) : (b.setWriteCursor a).wc = a := rfl

@[simp] theorem Buffer.setReadCursor_twice (b : Buffer) (a c : Nat) :
    (b.setReadCursor a).setReadCursor c = b.setReadCursor c := rfl

@[simp] theorem State.setM_memSize (s : State) (b : Buffer) : (s.setM b).memSize = s.memSize := rfl
@[simp] theorem State.setM_m (s : State) (b : Buffer) : (s.setM b).m = b := rfl
@[simp] theorem State.setM_rb (s : State) (b : Buffer) : (s.setM b).rb = s.rb := rfl
@[simp] theorem State.setRb_memSize (s : State) (b : Buffer) : (s.setRb b).memSize = s.memSize := rfl
@[simp] theorem State.setRb_m (s : State) (b : Buffer) : (s.setRb b).m = s.m := rfl
@[simp] theorem State.setRb_rb (s : State) (b : Buffer) : (s.setRb b).rb = b := rfl
@[simp] theorem State.setM_twice (s : State) (b c : Buffer) : (s.setM b).setM c = s.setM c := rfl
@[simp] theorem State.setRb_twice (s : State) (b c : Buffer) : (s.setRb b).setRb c = s.setRb c := rfl

@[simp] theorem State.constructed_memSize (n : Nat) : (State.constructed n).memSize = n := rfl
@[simp] theorem State.constructed_byte (n a : Nat) : (State.constructed n).byte a = 0#8 := rfl
@[simp] theorem State.constructed_reg (n : Nat) (r : RegName) : (State.constructed n).reg r = 0#16 := by
  change wordOfBytes 0#8 0#8 = 0#16
  decide

@[simp] theorem State.byte_setM (s : State) (b : Buffer) (a : Nat) : (s.setM b).byte a = b.cells.read a := rfl
@[simp] theorem State.byte_setRb (s : State) (b : Buffer) (a : Nat) : (s.setRb b).byte a = s.byte a := rfl
@[simp] theorem State.slot_setM (s : State) (b : Buffer) (i : Nat) : (s.setM b).slot i = s.slot i := rfl
@[simp] theorem State.reg_setM (s : State) (b : Buffer) (r : RegName) : (s.setM b).reg r = s.reg r := rfl

/-- Moving a cursor of the register bank changes no slot. -/
@[simp] theorem State.slot_setRb_cells (s : State) (b : Buffer) (i : Nat) (h : b.cells = s.rb.cells) :
    (s.setRb b).slot i = s.slot i := by
  simp [State.slot, h]

@[simp] theorem State.reg_setRb_cells (s : State) (b : Buffer) (r : RegName) (h : b.cells = s.rb.cells) :
    (s.setRb b).reg r = s.reg r := by
  simp [State.reg, h]

@[simp] theorem Fault.kind_outOfBounds (s : State) : (Fault.outOfBounds s).kind = .outOfBounds := rfl
@[simp] theorem Fault.kind_unknownInstruction (op : Byte) (s : State) :
    (Fault.unknownInstruction op s).kind = .unknownInstruction op := rfl
@[simp] theorem Fault.kind_registerNotFound (s : State) : (Fault.registerNotFound s).kind = .registerNotFound := rfl
@[simp] theorem resume_raise (k : FailureKind) (s : State) : resume (raise k s) = s := by cases k <;> rfl
@[simp] theorem kind_raise (k : FailureKind) (s : State) : (raise k s).kind = k := by cases k <;> rfl

@[simp] theorem outcome_ok (s : State) : outcome (.ok s) = .next s := rfl
@[simp] theorem outcome_error (f : Fault) : outcome (.error f) = .fault f := rfl

end Sys2Proof.Machine
end

