-- ==== Sys2Proof/Laws/Ops.lean ====
section
/-! SUPPORT. What each shared operation answers, once: in closed form, so that no proof unfolds an operation again. -/

namespace Sys2Proof.Machine

/-! ### Registers -/

@[simp] theorem regSlot_lt (r : RegName) : regSlot r < 10 := by cases r <;> decide

/-- Distinct names have distinct slots (R11: "dense, non-overlapping"). -/
theorem regSlot_inj {r q : RegName} : regSlot r = regSlot q ↔ r = q := by
  cases r <;> cases q <;> decide

theorem RegName.mem_all (r : RegName) : r ∈ RegName.all := by cases r <;> decide

/-- The state after a word is written to the register bank at offset `o`. -/
def State.putWord (s : State) (o : Nat) (v : Word) : State :=
  s.setRb { s.rb with cells := (s.rb.cells.write o (hiByte v)).write (o + 1) (loByte v), wc := o + 2 }

/-- The state after a register is written by name. Irreducible, so that no proof evaluates the bytes by accident: use the
lemmas below. -/
@[irreducible] def State.putReg (s : State) (r : RegName) (v : Word) : State := s.putWord (slotOffset (regSlot r)) v

@[simp] theorem State.putWord_memSize (s : State) (o : Nat) (v : Word) : (s.putWord o v).memSize = s.memSize := rfl
@[simp] theorem State.putWord_m (s : State) (o : Nat) (v : Word) : (s.putWord o v).m = s.m := rfl
@[simp] theorem State.putWord_rc (s : State) (o : Nat) (v : Word) : (s.putWord o v).rb.rc = s.rb.rc := rfl
@[simp] theorem State.putWord_wc (s : State) (o : Nat) (v : Word) : (s.putWord o v).rb.wc = o + 2 := rfl
@[simp] theorem State.putWord_byte (s : State) (o : Nat) (v : Word) (a : Nat) : (s.putWord o v).byte a = s.byte a := rfl

@[simp] theorem State.putReg_memSize (s : State) (r : RegName) (v : Word) : (s.putReg r v).memSize = s.memSize := by
  unfold State.putReg; rfl
@[simp] theorem State.putReg_m (s : State) (r : RegName) (v : Word) : (s.putReg r v).m = s.m := by
  unfold State.putReg; rfl
@[simp] theorem State.putReg_rc (s : State) (r : RegName) (v : Word) : (s.putReg r v).rb.rc = s.rb.rc := by
  unfold State.putReg; rfl
@[simp] theorem State.putReg_wc (s : State) (r : RegName) (v : Word) :
    (s.putReg r v).rb.wc = slotOffset (regSlot r) + 2 := by
  unfold State.putReg; rfl
@[simp] theorem State.putReg_byte (s : State) (r : RegName) (v : Word) (a : Nat) : (s.putReg r v).byte a = s.byte a := by
  unfold State.putReg; rfl

/-- Reading a slot after a register is written: the value written in its slot, every other slot as before (R13). -/
theorem State.putReg_slot (s : State) (r : RegName) (v : Word) (i : Nat) :
    (s.putReg r v).slot i = if i = regSlot r then v else s.slot i := by
  unfold State.putReg State.putWord State.slot slotOffset
  simp only [State.setRb_rb, Memory.read_write]
  by_cases h : i = regSlot r
  · subst h
    simp
  · rw [if_neg (by omega), if_neg (by omega), if_neg (by omega), if_neg (by omega), if_neg h]

@[simp] theorem State.putReg_reg (s : State) (r q : RegName) (v : Word) :
    (s.putReg r v).reg q = if q = r then v else s.reg q := by
  simp [State.reg, State.putReg_slot, regSlot_inj]

/-! ### The access primitives -/

/-- `MemRead(a, 1)` (R31). -/
theorem memReadByte_eq (a : Nat) (s : State) :
    memReadByte a s =
      if s.memSize ≤ a then .error (.outOfBounds (s.setM (s.m.setReadCursor a)))
      else .ok (s.byte a, s.setM (s.m.setReadCursor (a + 1))) := by
  by_cases h : s.memSize ≤ a <;> simp [memReadByte, Buffer.readByte, h, raise, State.byte]

/-- `MemRead(a, 2)` (R32). -/
theorem memReadWord_eq (a : Nat) (s : State) :
    memReadWord a s =
      if s.memSize < a + 2 then .error (.outOfBounds (s.setM (s.m.setReadCursor a)))
      else .ok (wordOfBytes (s.byte a) (s.byte (a + 1)), s.setM (s.m.setReadCursor (a + 2))) := by
  by_cases h : s.memSize < a + 2 <;> simp [memReadWord, Buffer.readWord, h, raise, State.byte]

/-- `RegBankRead(o)` (R33). -/
theorem regBankRead_eq (o : Nat) (s : State) :
    regBankRead o s =
      if 20 < o + 2 then .error (.outOfBounds (s.setRb (s.rb.setReadCursor o)))
      else .ok (wordOfBytes (s.rb.cells.read o) (s.rb.cells.read (o + 1)), s.setRb (s.rb.setReadCursor (o + 2))) := by
  by_cases h : 20 < o + 2 <;>
    simp [regBankRead, Buffer.readWord, Config.regBankSize, Config.regCount, h, raise]

/-- `RegBankWrite(o, v)` (R34). -/
theorem regBankWrite_eq (o : Nat) (v : Word) (s : State) :
    regBankWrite o v s =
      if 20 < o + 2 then .error (.outOfBounds (s.setRb (s.rb.setWriteCursor o)))
      else .ok (s.putWord o v) := by
  by_cases h : 20 < o + 2 <;>
    simp [regBankWrite, Buffer.writeWord, Config.regBankSize, Config.regCount, h, raise]
  rfl

/-- The read cursor of the register bank moved to `o`. -/
def State.rbCursor (s : State) (o : Nat) : State := s.setRb (s.rb.setReadCursor o)

/-- The read cursor of program memory moved to `a`. -/
def State.mCursor (s : State) (a : Nat) : State := s.setM (s.m.setReadCursor a)

@[simp] theorem State.rbCursor_memSize (s : State) (o : Nat) : (s.rbCursor o).memSize = s.memSize := rfl
@[simp] theorem State.rbCursor_m (s : State) (o : Nat) : (s.rbCursor o).m = s.m := rfl
@[simp] theorem State.rbCursor_cells (s : State) (o : Nat) : (s.rbCursor o).rb.cells = s.rb.cells := rfl
@[simp] theorem State.rbCursor_rc (s : State) (o : Nat) : (s.rbCursor o).rb.rc = o := rfl
@[simp] theorem State.rbCursor_wc (s : State) (o : Nat) : (s.rbCursor o).rb.wc = s.rb.wc := rfl
@[simp] theorem State.rbCursor_byte (s : State) (o a : Nat) : (s.rbCursor o).byte a = s.byte a := rfl
@[simp] theorem State.rbCursor_slot (s : State) (o i : Nat) : (s.rbCursor o).slot i = s.slot i := rfl
@[simp] theorem State.rbCursor_reg (s : State) (o : Nat) (r : RegName) : (s.rbCursor o).reg r = s.reg r := rfl
@[simp] theorem State.mCursor_memSize (s : State) (a : Nat) : (s.mCursor a).memSize = s.memSize := rfl
@[simp] theorem State.mCursor_cells (s : State) (a : Nat) : (s.mCursor a).m.cells = s.m.cells := rfl
@[simp] theorem State.mCursor_rc (s : State) (a : Nat) : (s.mCursor a).m.rc = a := rfl
@[simp] theorem State.mCursor_wc (s : State) (a : Nat) : (s.mCursor a).m.wc = s.m.wc := rfl
@[simp] theorem State.mCursor_rb (s : State) (a : Nat) : (s.mCursor a).rb = s.rb := rfl
@[simp] theorem State.mCursor_byte (s : State) (a x : Nat) : (s.mCursor a).byte x = s.byte x := rfl
@[simp] theorem State.mCursor_slot (s : State) (a i : Nat) : (s.mCursor a).slot i = s.slot i := rfl
@[simp] theorem State.mCursor_reg (s : State) (a : Nat) (r : RegName) : (s.mCursor a).reg r = s.reg r := rfl

/-- Name-based `get` never fails and returns the register (R13, R33). -/
theorem getReg_eq (r : RegName) (s : State) :
    getReg r s = .ok (s.reg r, s.rbCursor (slotOffset (regSlot r) + 2)) := by
  have := regSlot_lt r
  rw [getReg, regBankRead_eq, if_neg (by unfold slotOffset; omega)]
  rfl

/-- Name-based `set` never fails (R34). -/
theorem setReg_eq (r : RegName) (v : Word) (s : State) : setReg r v s = .ok (s.putReg r v) := by
  have := regSlot_lt r
  rw [setReg, regBankWrite_eq, if_neg (by unfold slotOffset; omega)]
  unfold State.putReg
  rfl

/-- A slot read (R33, R70, R73): slots 0 to 9 answer their register, the others fail with the cursor set. -/
theorem readSlot_eq (i : Byte) (s : State) :
    readSlot i s =
      if i.toNat < 10 then .ok (s.slot i.toNat, s.rbCursor (slotOffset i.toNat + 2))
      else .error (.outOfBounds (s.rbCursor (slotOffset i.toNat))) := by
  rw [readSlot, regBankRead_eq]
  by_cases h : i.toNat < 10
  · rw [if_neg (by unfold slotOffset; omega), if_pos h]; rfl
  · rw [if_pos (by unfold slotOffset; omega), if_neg h]; rfl

/-! ### The fetches -/

/-- The state after a fetch of `n` bytes at `ip`: `ip` and the cursors have advanced, nothing else has changed.
Irreducible, like `putReg`. -/
@[irreducible] def State.advance (s : State) (n : Nat) : State :=
  ((s.rbCursor 2).mCursor ((s.reg .ip).toNat + n)).putReg .ip (s.reg .ip + BitVec.ofNat 16 n)

/-- The state after a fetch that failed: only cursors have moved (R59, R60, R99). -/
def State.stuck (s : State) : State := (s.rbCursor 2).mCursor (s.reg .ip).toNat

@[simp] theorem State.advance_memSize (s : State) (n : Nat) : (s.advance n).memSize = s.memSize := by
  unfold State.advance; simp
@[simp] theorem State.advance_byte (s : State) (n a : Nat) : (s.advance n).byte a = s.byte a := by
  unfold State.advance; simp
@[simp] theorem State.advance_mcells (s : State) (n : Nat) : (s.advance n).m.cells = s.m.cells := by
  unfold State.advance; simp
@[simp] theorem State.advance_mrc (s : State) (n : Nat) : (s.advance n).m.rc = (s.reg .ip).toNat + n := by
  unfold State.advance; simp
@[simp] theorem State.advance_mwc (s : State) (n : Nat) : (s.advance n).m.wc = s.m.wc := by
  unfold State.advance; simp
@[simp] theorem State.advance_rbrc (s : State) (n : Nat) : (s.advance n).rb.rc = 2 := by
  unfold State.advance; simp
@[simp] theorem State.advance_rbwc (s : State) (n : Nat) : (s.advance n).rb.wc = 2 := by
  unfold State.advance; simp [slotOffset, regSlot]
@[simp] theorem State.advance_reg (s : State) (n : Nat) (r : RegName) :
    (s.advance n).reg r = if r = .ip then s.reg .ip + BitVec.ofNat 16 n else s.reg r := by
  simp [State.advance]

@[simp] theorem State.stuck_memSize (s : State) : s.stuck.memSize = s.memSize := rfl
@[simp] theorem State.stuck_byte (s : State) (a : Nat) : s.stuck.byte a = s.byte a := rfl
@[simp] theorem State.stuck_mcells (s : State) : s.stuck.m.cells = s.m.cells := rfl
@[simp] theorem State.stuck_rbcells (s : State) : s.stuck.rb.cells = s.rb.cells := rfl
@[simp] theorem State.stuck_mrc (s : State) : s.stuck.m.rc = (s.reg .ip).toNat := rfl
@[simp] theorem State.stuck_mwc (s : State) : s.stuck.m.wc = s.m.wc := rfl
@[simp] theorem State.stuck_rbrc (s : State) : s.stuck.rb.rc = 2 := rfl
@[simp] theorem State.stuck_rbwc (s : State) : s.stuck.rb.wc = s.rb.wc := rfl
@[simp] theorem State.stuck_reg (s : State) (r : RegName) : s.stuck.reg r = s.reg r := rfl

/-- `fetch()` (R59). -/
theorem fetch_eq (s : State) :
    fetch s =
      if s.memSize ≤ (s.reg .ip).toNat then .error (.outOfBounds s.stuck)
      else .ok (s.byte (s.reg .ip).toNat, s.advance 1) := by
  simp only [fetch, getReg_eq, setReg_eq, memReadByte_eq, bind, Except.bind, State.rbCursor_memSize]
  by_cases h : s.memSize ≤ (s.reg .ip).toNat
  · simp only [h, if_true]; rfl
  · simp only [h, if_false]; unfold State.advance; rfl

/-- `fetch_word()` (R60). -/
theorem fetchWord_eq (s : State) :
    fetchWord s =
      if s.memSize < (s.reg .ip).toNat + 2 then .error (.outOfBounds s.stuck)
      else .ok (wordOfBytes (s.byte (s.reg .ip).toNat) (s.byte ((s.reg .ip).toNat + 1)), s.advance 2) := by
  simp only [fetchWord, getReg_eq, setReg_eq, memReadWord_eq, bind, Except.bind, State.rbCursor_memSize]
  by_cases h : s.memSize < (s.reg .ip).toNat + 2
  · simp only [h, if_true]; rfl
  · simp only [h, if_false]; unfold State.advance; rfl

end Sys2Proof.Machine
end

