-- ==== Sys2Proof/Laws/Step.lean ====
section
/-! SUPPORT. What each meaning answers, and what one step can do (`step_cases`), said once: the later proofs cite
these and unfold no meaning. -/

namespace Sys2Proof.Machine

/-- MOV_LIT_R1 (R67). -/
theorem exec_movLitR1 (lit : Word) (s : State) : exec (.movLitR1 lit) s = .next (s.putReg .r1 lit) := by
  simp [exec, execMovLitR1, setReg_eq]

/-- MOV_LIT_R2 (R68). -/
theorem exec_movLitR2 (lit : Word) (s : State) : exec (.movLitR2 lit) s = .next (s.putReg .r2 lit) := by
  simp [exec, execMovLitR2, setReg_eq]

/-- ADD_REG_REG (R70): slot `A`, then slot `B`, then the sum. -/
theorem exec_addRegReg (a b : Byte) (s : State) :
    exec (.addRegReg a b) s =
      if a.toNat < 10 then
        if b.toNat < 10 then
          .next ((s.rbCursor (slotOffset b.toNat + 2)).putReg .acc (s.slot a.toNat + s.slot b.toNat))
        else .fault (.outOfBounds (s.rbCursor (slotOffset b.toNat)))
      else .fault (.outOfBounds (s.rbCursor (slotOffset a.toNat))) := by
  by_cases ha : a.toNat < 10
  · by_cases hb : b.toNat < 10
    · simp only [exec, execAddRegReg, readSlot_eq, setReg_eq, bind, Except.bind, ha, hb, if_true, outcome_ok]
      rfl
    · simp only [exec, execAddRegReg, readSlot_eq, bind, Except.bind, ha, hb, if_true, if_false, outcome_error]
      rfl
  · simp only [exec, execAddRegReg, readSlot_eq, bind, Except.bind, ha, if_false, outcome_error]

/-- No meaning refuses. -/
theorem exec_not_refused (i : Instr) (s : State) (r : Refusal) : exec i s ≠ .refused r := by
  cases i with
  | movLitR1 lit => simp [exec_movLitR1]
  | movLitR2 lit => simp [exec_movLitR2]
  | addRegReg a b => rw [exec_addRegReg]; split_ifs <;> simp

/-- No step refuses (R66). -/
theorem step_not_refused (s : State) (r : Refusal) : step s ≠ .refused r := by
  unfold step
  split
  · simp
  · exact exec_not_refused _ _ _

/-- The state after the fetches of a literal move. -/
abbrev State.pastLit (s : State) : State := (s.advance 1).advance 2

/-- The state after the fetches of an addition. -/
abbrev State.pastSlots (s : State) : State := ((s.advance 1).advance 1).advance 1

@[simp] theorem State.pastLit_reg (s : State) (r : RegName) :
    s.pastLit.reg r = if r = .ip then s.a3 else s.reg r := by
  by_cases h : r = .ip <;> simp [h, State.a3, BitVec.add_assoc]

@[simp] theorem State.pastSlots_reg (s : State) (r : RegName) :
    s.pastSlots.reg r = if r = .ip then s.a3 else s.reg r := by
  by_cases h : r = .ip <;> simp [h, State.a3, BitVec.add_assoc]

theorem State.advance_one_reg_ip (s : State) : (s.advance 1).reg .ip = s.a1 := by simp [State.a1]

theorem State.advance_one_one_reg_ip (s : State) : ((s.advance 1).advance 1).reg .ip = s.a2 := by
  simp [State.a2, BitVec.add_assoc]

/-- The fetches of one step, case by case: every row of R99 that a fetch decides, and the three instructions. -/
theorem fetchInstr_cases (s : State) :
    (s.memSize ≤ s.a0.toNat ∧ fetchInstr s = .error (.outOfBounds s.stuck)) ∨
    (s.a0.toNat < s.memSize ∧ (s.at s.a0 ≠ opMovLitR1 ∧ s.at s.a0 ≠ opMovLitR2 ∧ s.at s.a0 ≠ opAddRegReg) ∧
      fetchInstr s = .error (.unknownInstruction (s.at s.a0) (s.advance 1))) ∨
    ((s.Opcode opMovLitR1 ∨ s.Opcode opMovLitR2) ∧ s.memSize < s.a1.toNat + 2 ∧
      fetchInstr s = .error (.outOfBounds (s.advance 1).stuck)) ∨
    (s.Opcode opAddRegReg ∧ s.memSize ≤ s.a1.toNat ∧ fetchInstr s = .error (.outOfBounds (s.advance 1).stuck)) ∨
    (s.Opcode opAddRegReg ∧ s.a1.toNat < s.memSize ∧ s.memSize ≤ s.a2.toNat ∧
      fetchInstr s = .error (.outOfBounds ((s.advance 1).advance 1).stuck)) ∨
    (s.Opcode opMovLitR1 ∧ s.LiteralFits ∧ fetchInstr s = .ok (.movLitR1 (s.wordAt s.a1), s.pastLit)) ∨
    (s.Opcode opMovLitR2 ∧ s.LiteralFits ∧ fetchInstr s = .ok (.movLitR2 (s.wordAt s.a1), s.pastLit)) ∨
    (s.Opcode opAddRegReg ∧ s.SlotsFit ∧ fetchInstr s = .ok (.addRegReg (s.at s.a1) (s.at s.a2), s.pastSlots)) := by
  by_cases h0 : s.memSize ≤ s.a0.toNat
  · refine .inl ⟨h0, ?_⟩
    unfold State.a0 at h0
    simp [fetchInstr, fetch_eq, h0, bind, Except.bind]
  · have h0' : ¬ s.memSize ≤ (s.reg .ip).toNat := h0
    have hlt : s.a0.toNat < s.memSize := by omega
    have hat : s.at s.a0 = s.byte (s.reg .ip).toNat := rfl
    have lit : ∀ instr, shapeOf (s.byte (s.reg .ip).toNat) = some (.lit16 instr) →
        fetchInstr s = if s.memSize < s.a1.toNat + 2 then .error (.outOfBounds (s.advance 1).stuck)
          else .ok (instr (s.wordAt s.a1), s.pastLit) := by
      intro instr hs
      simp only [fetchInstr, fetch_eq, fetchWord_eq, h0', if_false, bind, Except.bind, hs, State.advance_memSize,
        State.advance_one_reg_ip, State.advance_byte]
      by_cases h1 : s.memSize < s.a1.toNat + 2 <;> simp only [h1, if_true, if_false]
      rfl
    have slots : shapeOf (s.byte (s.reg .ip).toNat) = some (.slot2 .addRegReg) →
        fetchInstr s = if s.memSize ≤ s.a1.toNat then .error (.outOfBounds (s.advance 1).stuck)
          else if s.memSize ≤ s.a2.toNat then .error (.outOfBounds ((s.advance 1).advance 1).stuck)
          else .ok (.addRegReg (s.at s.a1) (s.at s.a2), s.pastSlots) := by
      intro hs
      simp only [fetchInstr, fetch_eq, h0', if_false, bind, Except.bind, hs, State.advance_memSize,
        State.advance_one_reg_ip, State.advance_byte]
      by_cases h1 : s.memSize ≤ s.a1.toNat <;> simp only [h1, if_true, if_false]
      simp only [State.advance_memSize, State.advance_one_one_reg_ip, State.advance_byte]
      by_cases h2 : s.memSize ≤ s.a2.toNat <;> simp only [h2, if_true, if_false]
      rfl
    obtain ⟨ho, hs⟩ | ⟨ho, hs⟩ | ⟨ho, hs⟩ | ⟨n1, n2, n3, hs⟩ := shapeOf_cases (s.byte (s.reg .ip).toNat)
    · have l := lit _ hs
      by_cases h1 : s.memSize < s.a1.toNat + 2
      · exact .inr (.inr (.inl ⟨.inl ⟨hlt, ho⟩, h1, by rw [l, if_pos h1]⟩))
      · exact .inr (.inr (.inr (.inr (.inr (.inl
          ⟨⟨hlt, ho⟩, by unfold State.LiteralFits; omega, by rw [l, if_neg h1]⟩)))))
    · have l := lit _ hs
      by_cases h1 : s.memSize < s.a1.toNat + 2
      · exact .inr (.inr (.inl ⟨.inr ⟨hlt, ho⟩, h1, by rw [l, if_pos h1]⟩))
      · exact .inr (.inr (.inr (.inr (.inr (.inr (.inl
          ⟨⟨hlt, ho⟩, by unfold State.LiteralFits; omega, by rw [l, if_neg h1]⟩))))))
    · have l := slots hs
      by_cases h1 : s.memSize ≤ s.a1.toNat
      · exact .inr (.inr (.inr (.inl ⟨⟨hlt, ho⟩, h1, by rw [l, if_pos h1]⟩)))
      · by_cases h2 : s.memSize ≤ s.a2.toNat
        · exact .inr (.inr (.inr (.inr (.inl ⟨⟨hlt, ho⟩, by omega, h2, by rw [l, if_neg h1, if_pos h2]⟩))))
        · exact .inr (.inr (.inr (.inr (.inr (.inr (.inr
            ⟨⟨hlt, ho⟩, ⟨by omega, by omega⟩, by rw [l, if_neg h1, if_neg h2]⟩))))))
    · refine .inr (.inl ⟨hlt, ⟨n1, n2, n3⟩, ?_⟩)
      simp only [fetchInstr, fetch_eq, h0', if_false, bind, Except.bind, hs]
      rfl

/-- What one step can do: the seven failures of R99, in its order, and the three instructions. -/
theorem step_cases (s : State) :
    (s.memSize ≤ s.a0.toNat ∧ step s = .fault (.outOfBounds s.stuck)) ∨
    (s.a0.toNat < s.memSize ∧ (s.at s.a0 ≠ opMovLitR1 ∧ s.at s.a0 ≠ opMovLitR2 ∧ s.at s.a0 ≠ opAddRegReg) ∧
      step s = .fault (.unknownInstruction (s.at s.a0) (s.advance 1))) ∨
    ((s.Opcode opMovLitR1 ∨ s.Opcode opMovLitR2) ∧ s.memSize < s.a1.toNat + 2 ∧
      step s = .fault (.outOfBounds (s.advance 1).stuck)) ∨
    (s.Opcode opAddRegReg ∧ s.memSize ≤ s.a1.toNat ∧ step s = .fault (.outOfBounds (s.advance 1).stuck)) ∨
    (s.Opcode opAddRegReg ∧ s.a1.toNat < s.memSize ∧ s.memSize ≤ s.a2.toNat ∧
      step s = .fault (.outOfBounds ((s.advance 1).advance 1).stuck)) ∨
    (s.Opcode opAddRegReg ∧ s.SlotsFit ∧ 10 ≤ (s.at s.a1).toNat ∧
      step s = .fault (.outOfBounds (s.pastSlots.rbCursor (slotOffset (s.at s.a1).toNat)))) ∨
    (s.Opcode opAddRegReg ∧ s.SlotsFit ∧ (s.at s.a1).toNat < 10 ∧ 10 ≤ (s.at s.a2).toNat ∧
      step s = .fault (.outOfBounds (s.pastSlots.rbCursor (slotOffset (s.at s.a2).toNat)))) ∨
    (s.Opcode opMovLitR1 ∧ s.LiteralFits ∧ step s = .next (s.pastLit.putReg .r1 (s.wordAt s.a1))) ∨
    (s.Opcode opMovLitR2 ∧ s.LiteralFits ∧ step s = .next (s.pastLit.putReg .r2 (s.wordAt s.a1))) ∨
    (s.Opcode opAddRegReg ∧ s.SlotsFit ∧ (s.at s.a1).toNat < 10 ∧ (s.at s.a2).toNat < 10 ∧
      step s = .next ((s.pastSlots.rbCursor (slotOffset (s.at s.a2).toNat + 2)).putReg .acc
        (s.pastSlots.slot (s.at s.a1).toNat + s.pastSlots.slot (s.at s.a2).toNat))) := by
  have hstep : ∀ {f}, fetchInstr s = .error f → step s = .fault f := fun h => by simp [step, h]
  have hexec : ∀ {i t}, fetchInstr s = .ok (i, t) → step s = exec i t := fun h => by simp [step, h]
  obtain ⟨h, e⟩ | ⟨h, n, e⟩ | ⟨h, l, e⟩ | ⟨h, l, e⟩ | ⟨h, l, k, e⟩ | ⟨h, l, e⟩ | ⟨h, l, e⟩ | ⟨h, l, e⟩ :=
    fetchInstr_cases s
  · exact .inl ⟨h, hstep e⟩
  · exact .inr (.inl ⟨h, n, hstep e⟩)
  · exact .inr (.inr (.inl ⟨h, l, hstep e⟩))
  · exact .inr (.inr (.inr (.inl ⟨h, l, hstep e⟩)))
  · exact .inr (.inr (.inr (.inr (.inl ⟨h, l, k, hstep e⟩))))
  · exact .inr (.inr (.inr (.inr (.inr (.inr (.inr (.inl ⟨h, l, (hexec e).trans (exec_movLitR1 _ _)⟩)))))))
  · exact .inr (.inr (.inr (.inr (.inr (.inr (.inr (.inr (.inl ⟨h, l, (hexec e).trans (exec_movLitR2 _ _)⟩))))))))
  · have e := (hexec e).trans (exec_addRegReg _ _ _)
    by_cases ha : (s.at s.a1).toNat < 10
    · by_cases hb : (s.at s.a2).toNat < 10
      · exact .inr (.inr (.inr (.inr (.inr (.inr (.inr (.inr (.inr ⟨h, l, ha, hb, by rw [e, if_pos ha, if_pos hb]⟩))))))))
      · exact .inr (.inr (.inr (.inr (.inr (.inr (.inl
          ⟨h, l, ha, by omega, by rw [e, if_pos ha, if_neg hb]⟩))))))
    · exact .inr (.inr (.inr (.inr (.inr (.inl ⟨h, l, by omega, by rw [e, if_neg ha]⟩)))))

/-! ### One step, by the opcode at `ip` -/

theorem State.Opcode.unique {s : State} {op op' : Byte} (h : s.Opcode op) (h' : s.Opcode op') : op = op' :=
  h.2.symm.trans h'.2

/-- Row 1 of R99. -/
theorem step_of_outOfBounds {s : State} (h : s.memSize ≤ s.a0.toNat) : step s = .fault (.outOfBounds s.stuck) := by
  have hl : ∀ {op}, ¬ s.Opcode op := fun o => absurd o.1 (by omega)
  obtain ⟨_, e⟩ | ⟨h', _⟩ | ⟨h', _⟩ | ⟨h', _⟩ | ⟨h', _⟩ | ⟨h', _⟩ | ⟨h', _⟩ | ⟨h', _⟩ | ⟨h', _⟩ | ⟨h', _⟩ := step_cases s
  · exact e
  · omega
  · exact h'.elim (absurd · hl) (absurd · hl)
  all_goals exact absurd h' hl

/-- Row 2 of R99. -/
theorem step_of_illegal {s : State} (h : s.a0.toNat < s.memSize) (hi : IllegalOpcode (s.at s.a0)) :
    step s = .fault (.unknownInstruction (s.at s.a0) (s.advance 1)) := by
  have h1 : ¬ s.Opcode opMovLitR1 := fun o => hi.1 o.2
  have h2 : ¬ s.Opcode opMovLitR2 := fun o => hi.2.1 o.2
  have h3 : ¬ s.Opcode opAddRegReg := fun o => hi.2.2 o.2
  obtain ⟨h', _⟩ | ⟨_, _, e⟩ | ⟨h', _⟩ | ⟨h', _⟩ | ⟨h', _⟩ | ⟨h', _⟩ | ⟨h', _⟩ | ⟨h', _⟩ | ⟨h', _⟩ | ⟨h', _⟩ := step_cases s
  · omega
  · exact e
  · exact h'.elim (absurd · h1) (absurd · h2)
  all_goals first | exact absurd h' h1 | exact absurd h' h2 | exact absurd h' h3

/-- The step of MOV_LIT_R1 (R67): its effect, or row 3 of R99. -/
theorem step_of_movLitR1 {s : State} (h : s.Opcode opMovLitR1) :
    step s = if s.a1.toNat + 2 ≤ s.memSize then .next (s.pastLit.putReg .r1 (s.wordAt s.a1))
      else .fault (.outOfBounds (s.advance 1).stuck) := by
  have hlt := h.1
  obtain ⟨h', _⟩ | ⟨_, n, _⟩ | ⟨_, l, e⟩ | ⟨h', _⟩ | ⟨h', _⟩ | ⟨h', _⟩ | ⟨h', _⟩ | ⟨_, l, e⟩ | ⟨h', _⟩ | ⟨h', _⟩ := step_cases s
  · omega
  · exact absurd h.2 n.1
  · rw [e, if_neg (by omega)]
  case inr.inr.inr.inr.inr.inr.inr.inl => exact e.trans (if_pos l).symm
  all_goals exact absurd (h.unique h') (by decide)

/-- The step of MOV_LIT_R2 (R68): its effect, or row 3 of R99. -/
theorem step_of_movLitR2 {s : State} (h : s.Opcode opMovLitR2) :
    step s = if s.a1.toNat + 2 ≤ s.memSize then .next (s.pastLit.putReg .r2 (s.wordAt s.a1))
      else .fault (.outOfBounds (s.advance 1).stuck) := by
  have hlt := h.1
  obtain ⟨h', _⟩ | ⟨_, n, _⟩ | ⟨_, l, e⟩ | ⟨h', _⟩ | ⟨h', _⟩ | ⟨h', _⟩ | ⟨h', _⟩ | ⟨h', _⟩ | ⟨_, l, e⟩ | ⟨h', _⟩ := step_cases s
  · omega
  · exact absurd h.2 n.2.1
  · rw [e, if_neg (by omega)]
  case inr.inr.inr.inr.inr.inr.inr.inr.inl => exact e.trans (if_pos l).symm
  all_goals exact absurd (h.unique h') (by decide)

/-- The step of ADD_REG_REG (R70): rows 4 to 7 of R99 in their order, or its effect. -/
theorem step_of_addRegReg {s : State} (h : s.Opcode opAddRegReg) :
    step s =
      if s.memSize ≤ s.a1.toNat then .fault (.outOfBounds (s.advance 1).stuck)
      else if s.memSize ≤ s.a2.toNat then .fault (.outOfBounds ((s.advance 1).advance 1).stuck)
      else if 10 ≤ (s.at s.a1).toNat then
        .fault (.outOfBounds (s.pastSlots.rbCursor (slotOffset (s.at s.a1).toNat)))
      else if 10 ≤ (s.at s.a2).toNat then
        .fault (.outOfBounds (s.pastSlots.rbCursor (slotOffset (s.at s.a2).toNat)))
      else .next ((s.pastSlots.rbCursor (slotOffset (s.at s.a2).toNat + 2)).putReg .acc
        (s.pastSlots.slot (s.at s.a1).toNat + s.pastSlots.slot (s.at s.a2).toNat)) := by
  have hlt := h.1
  obtain ⟨h', _⟩ | ⟨_, n, _⟩ | ⟨h', _⟩ | ⟨_, l, e⟩ | ⟨_, l, k, e⟩ | ⟨_, l, k, e⟩ | ⟨_, l, j, k, e⟩ | ⟨h', _⟩ | ⟨h', _⟩ |
    ⟨_, l, j, k, e⟩ := step_cases s
  · omega
  · exact absurd h.2 n.2.2
  · exact h'.elim (fun o => absurd (h.unique o) (by decide)) (fun o => absurd (h.unique o) (by decide))
  · rw [e, if_pos l]
  · rw [e, if_neg (by omega), if_pos k]
  · have := l.1; have := l.2
    rw [e, if_neg (by omega), if_neg (by omega), if_pos k]
  · have := l.1; have := l.2
    rw [e, if_neg (by omega), if_neg (by omega), if_neg (by omega), if_pos k]
  · exact absurd (h.unique h') (by decide)
  · exact absurd (h.unique h') (by decide)
  · have := l.1; have := l.2
    rw [e, if_neg (by omega), if_neg (by omega), if_neg (by omega), if_neg (by omega)]

end Sys2Proof.Machine
end

