-- ==== Sys2Proof/Laws/Frame.lean ====
section
/-! SUPPORT. Frames compose, and each shared operation has its frame. -/

namespace Sys2Proof.Machine

theorem SameBut.refl (rs : List RegName) (s : State) : SameBut rs s s := ⟨rfl, fun _ => rfl, fun _ _ => rfl⟩

theorem SameBut.trans {rs : List RegName} {s t u : State} (h : SameBut rs s t) (k : SameBut rs t u) :
    SameBut rs s u :=
  ⟨k.1.trans h.1, fun a => (k.2.1 a).trans (h.2.1 a), fun r hr => (k.2.2 r hr).trans (h.2.2 r hr)⟩

/-- A frame that excepts fewer registers says more. -/
theorem SameBut.mono {rs qs : List RegName} {s t : State} (h : SameBut rs s t) (hq : ∀ r ∈ rs, r ∈ qs) :
    SameBut qs s t :=
  ⟨h.1, h.2.1, fun r hr => h.2.2 r (fun hr' => hr (hq r hr'))⟩

theorem SameBut.putReg (s : State) (r : RegName) (v : Word) : SameBut [r] s (s.putReg r v) :=
  ⟨by simp, by simp, fun q hq => by simp_all⟩

theorem SameBut.rbCursor (s : State) (o : Nat) : SameObservable s (s.rbCursor o) :=
  ⟨rfl, fun _ => rfl, fun _ _ => rfl⟩

theorem SameBut.stuck (s : State) : SameObservable s s.stuck := ⟨rfl, fun _ => rfl, fun _ _ => rfl⟩

theorem SameBut.advance (s : State) (n : Nat) : SameBut [.ip] s (s.advance n) :=
  ⟨by simp, by simp, fun q hq => by simp_all⟩

theorem SameBut.pastLit (s : State) : SameBut [.ip] s s.pastLit := (SameBut.advance s 1).trans (SameBut.advance _ 2)

theorem SameBut.pastSlots (s : State) : SameBut [.ip] s s.pastSlots :=
  ((SameBut.advance s 1).trans (SameBut.advance _ 1)).trans (SameBut.advance _ 1)

/-- Every slot 0 to 9 is some register's (R11). -/
theorem exists_regSlot (i : Nat) (h : i < 10) : ∃ r, regSlot r = i := by
  match i, h with
  | 0, _ => exact ⟨.ip, rfl⟩
  | 1, _ => exact ⟨.acc, rfl⟩
  | 2, _ => exact ⟨.r1, rfl⟩
  | 3, _ => exact ⟨.r2, rfl⟩
  | 4, _ => exact ⟨.r3, rfl⟩
  | 5, _ => exact ⟨.r4, rfl⟩
  | 6, _ => exact ⟨.r5, rfl⟩
  | 7, _ => exact ⟨.r6, rfl⟩
  | 8, _ => exact ⟨.r7, rfl⟩
  | 9, _ => exact ⟨.r8, rfl⟩

/-- A slot the frame keeps reads as before. -/
theorem SameBut.slot_eq {s t : State} (h : SameObservable s t) (i : Nat) (hi : i < 10) : t.slot i = s.slot i := by
  obtain ⟨r, rfl⟩ := exists_regSlot i hi
  exact h.2.2 r (by simp)

/-- What a slot read of an addition sees (R72): slot 0 the address past the instruction, every other slot its old value. -/
theorem pastSlots_slot (s : State) (i : Nat) (hi : i < 10) : s.pastSlots.slot i = s.slotSeen i := by
  obtain ⟨r, rfl⟩ := exists_regSlot i hi
  change s.pastSlots.reg r = _
  rw [State.pastSlots_reg, State.slotSeen]
  by_cases h : r = .ip
  · subst h; rfl
  · have : regSlot r ≠ 0 := fun h' => h (regSlot_inj.1 h')
    simp [h, this, State.reg]

end Sys2Proof.Machine
end

