-- ==== Sys2Proof/Laws/Invariant.lean ====
section
/-! SUPPORT. Every operation over memory and registers keeps the canonical form (State.wf). -/

namespace Sys2Proof.Machine

theorem State.wf_iff (s : State) :
    s.wf = true ↔ s.memSize ≤ 65536 ∧ s.m.cells.wf s.memSize = true ∧ s.rb.cells.wf 20 = true := by
  simp only [State.wf, Bool.and_eq_true, decide_eq_true_eq, and_assoc]
  rfl

/-- Moving cursors keeps the form. -/
theorem State.wf_of_cells {s t : State} (h : s.wf = true) (hs : t.memSize = s.memSize)
    (hm : t.m.cells = s.m.cells) (hr : t.rb.cells = s.rb.cells) : t.wf = true := by
  rw [State.wf_iff] at h ⊢
  rw [hs, hm, hr]
  exact h

theorem State.wf_putWord {s : State} (h : s.wf = true) (o : Nat) (v : Word) (ho : o + 2 ≤ 20) :
    (s.putWord o v).wf = true := by
  rw [State.wf_iff] at h ⊢
  exact ⟨h.1, h.2.1, Memory.wf_write _ _ _ _ (Memory.wf_write _ _ _ _ h.2.2 (by omega)) (by omega)⟩

theorem State.wf_putReg {s : State} (h : s.wf = true) (r : RegName) (v : Word) : (s.putReg r v).wf = true := by
  have := regSlot_lt r
  unfold State.putReg
  exact State.wf_putWord h _ _ (by unfold slotOffset; omega)

theorem State.wf_rbCursor {s : State} (h : s.wf = true) (o : Nat) : (s.rbCursor o).wf = true :=
  State.wf_of_cells h rfl rfl rfl

theorem State.wf_stuck {s : State} (h : s.wf = true) : s.stuck.wf = true := State.wf_of_cells h rfl rfl rfl

theorem State.wf_advance {s : State} (h : s.wf = true) (n : Nat) : (s.advance n).wf = true := by
  have hc : ((s.rbCursor 2).mCursor ((s.reg .ip).toNat + n)).wf = true := State.wf_of_cells h rfl rfl rfl
  unfold State.advance
  exact State.wf_putReg hc _ _

theorem memReadByte_wf {a : Nat} {b : Byte} {s t : State} (h : s.wf = true) (e : memReadByte a s = .ok (b, t)) :
    t.wf = true := by
  rw [memReadByte_eq] at e
  split_ifs at e
  injection e with e; injection e with _ e; subst e
  exact State.wf_of_cells h rfl rfl rfl

theorem memReadWord_wf {a : Nat} {w : Word} {s t : State} (h : s.wf = true) (e : memReadWord a s = .ok (w, t)) :
    t.wf = true := by
  rw [memReadWord_eq] at e
  split_ifs at e
  injection e with e; injection e with _ e; subst e
  exact State.wf_of_cells h rfl rfl rfl

theorem regBankRead_wf {o : Nat} {w : Word} {s t : State} (h : s.wf = true) (e : regBankRead o s = .ok (w, t)) :
    t.wf = true := by
  rw [regBankRead_eq] at e
  split_ifs at e
  injection e with e; injection e with _ e; subst e
  exact State.wf_of_cells h rfl rfl rfl

theorem regBankWrite_wf {o : Nat} {v : Word} {s t : State} (h : s.wf = true) (e : regBankWrite o v s = .ok t) :
    t.wf = true := by
  rw [regBankWrite_eq] at e
  split_ifs at e
  injection e with e; subst e
  exact State.wf_putWord h _ _ (by omega)

/-- `MemWrite(a, 1, b)` (R35). -/
theorem memWriteByte_eq (a : Nat) (b : Byte) (s : State) :
    memWriteByte a b s =
      if s.memSize ≤ a then .error (.outOfBounds (s.setM (s.m.setWriteCursor a)))
      else .ok (s.setM { s.m with cells := s.m.cells.write a b, wc := a + 1 }) := by
  by_cases h : s.memSize ≤ a <;> simp [memWriteByte, Buffer.writeByte, h, raise]

/-- `MemWrite(a, 2, w)` (R35). -/
theorem memWriteWord_eq (a : Nat) (w : Word) (s : State) :
    memWriteWord a w s =
      if s.memSize < a + 2 then .error (.outOfBounds (s.setM (s.m.setWriteCursor a)))
      else .ok (s.setM { s.m with cells := (s.m.cells.write a (hiByte w)).write (a + 1) (loByte w), wc := a + 2 }) := by
  by_cases h : s.memSize < a + 2 <;> simp [memWriteWord, Buffer.writeWord, h, raise]

theorem memWriteByte_wf {a : Nat} {b : Byte} {s t : State} (h : s.wf = true) (e : memWriteByte a b s = .ok t) :
    t.wf = true := by
  rw [memWriteByte_eq] at e
  split_ifs at e
  injection e with e; subst e
  rw [State.wf_iff] at h ⊢
  exact ⟨h.1, Memory.wf_write _ _ _ _ h.2.1 (by simp; omega), h.2.2⟩

theorem memWriteWord_wf {a : Nat} {w : Word} {s t : State} (h : s.wf = true) (e : memWriteWord a w s = .ok t) :
    t.wf = true := by
  rw [memWriteWord_eq] at e
  split_ifs at e
  injection e with e; subst e
  rw [State.wf_iff] at h ⊢
  exact ⟨h.1, Memory.wf_write _ _ _ _ (Memory.wf_write _ _ _ _ h.2.1 (by simp; omega)) (by simp; omega), h.2.2⟩

end Sys2Proof.Machine
end

