-- ==== Sys2Proof/Laws/HostOps.lean ====
section
/-! SUPPORT. What each host operation answers, once. -/

namespace Sys2Proof.Machine

/-- `load` (R82). -/
theorem load_eq (p : List Byte) (s : State) :
    load p s =
      if s.memSize < p.length then .error (.outOfBounds s)
      else .ok (s.setM { s.m with cells := s.m.cells.writeBytes 0 p, wc := p.length }) := by
  by_cases h : s.memSize < p.length <;> simp [load, Buffer.bulkWrite, h, raise]

theorem load_wf {p : List Byte} {s t : State} (h : s.wf = true) (e : load p s = .ok t) : t.wf = true := by
  rw [load_eq] at e
  split_ifs at e
  injection e with e; subst e
  rw [State.wf_iff] at h ⊢
  exact ⟨h.1, Memory.wf_writeBytes _ _ _ _ h.2.1 (by simp; omega), h.2.2⟩

/-- Distinct names are spelled differently (R11). -/
theorem regText_inj {r q : RegName} (h : regText r = regText q) : r = q := by
  cases r <;> cases q <;> first | rfl | (exact absurd h (by decide))

theorem regNamed_regText (r : RegName) : regNamed (regText r) = some r := by cases r <;> decide

theorem regNamed_none {name : String} (h : ∀ r, name ≠ regText r) : regNamed name = none := by
  simp only [regNamed, List.find?_eq_none, decide_eq_true_eq]
  exact fun r _ e => h r e.symm

theorem regNamed_some {name : String} {r : RegName} (h : regNamed name = some r) : name = regText r := by
  have := List.find?_some h
  simpa using Eq.symm (of_decide_eq_true this)

/-- `get_register` on a name of the set never fails (R84). -/
theorem getRegister_regText (r : RegName) (s : State) :
    getRegister (regText r) s = .ok (s.reg r, s.rbCursor (slotOffset (regSlot r) + 2)) := by
  simp [getRegister, regNamed_regText, getReg_eq]

/-- `set_register` on a name of the set never fails (R85). -/
theorem setRegister_regText (r : RegName) (v : Word) (s : State) :
    setRegister (regText r) v s = .ok (s.putReg r v) := by
  simp [setRegister, regNamed_regText, setReg_eq]

theorem getRegister_none {name : String} (h : ∀ r, name ≠ regText r) (s : State) :
    getRegister name s = .error (.registerNotFound s) := by
  simp [getRegister, regNamed_none h, raise]

theorem setRegister_none {name : String} (h : ∀ r, name ≠ regText r) (v : Word) (s : State) :
    setRegister name v s = .error (.registerNotFound s) := by
  simp [setRegister, regNamed_none h, raise]

/-- Every string is one of the ten names or none of them (R87). -/
theorem name_cases (name : String) : (∃ r, name = regText r) ∨ ∀ r, name ≠ regText r := by
  by_cases h : ∃ r, name = regText r
  · exact .inl h
  · exact .inr (fun r e => h ⟨r, e⟩)

/-- The digits of a dump are the upper-case hexadecimal ones (R86). -/
theorem hexDigit_eq_upperHex (d : Fin 16) : hexDigit d.val = upperHex d := by revert d; decide

/-- Dumping any registers reads each one and moves the read cursor of the register bank only (R86). -/
theorem debugOf_eq (rs : List RegName) (s : State) :
    ∃ o, debugOf rs s = .ok (rs.map (fun r => debugLine r (s.reg r)), s.rbCursor o) ∧
      (o = s.rb.rc ∨ o ≤ 20) := by
  induction rs generalizing s with
  | nil => exact ⟨s.rb.rc, rfl, .inl rfl⟩
  | cons r rs ih =>
    have hr := regSlot_lt r
    obtain ⟨o, e, ho⟩ := ih (s.rbCursor (slotOffset (regSlot r) + 2))
    refine ⟨o, ?_, .inr ?_⟩
    · simp only [debugOf, getReg_eq, bind, Except.bind, e]
      rfl
    · rcases ho with rfl | ho
      · simp only [State.rbCursor_rc, slotOffset]; omega
      · exact ho

/-- `debug()` (R86). -/
theorem debug_eq (s : State) : ∃ o, debug s = .ok (s.dump, s.rbCursor o) ∧ (o = s.rb.rc ∨ o ≤ 20) :=
  debugOf_eq RegName.all s

/-- What an operation of the host does to a session, case by case (R89, R112). -/
theorem perform_cases {op : HostOp} {x y : Session} {reply : Reply} (h : perform op (some x) = .ok (reply, y)) :
    (∃ n, op = .construct n ∧ n ≤ 65536 ∧ y = ⟨State.constructed n, true⟩ ∧ reply = .ok) ∨
    (∃ p, op = .load p ∧ x.mayLoad = true ∧
      ((x.block.memSize < p.length ∧ y.block = x.block ∧ reply = .failed .outOfBounds) ∨
       (p.length ≤ x.block.memSize ∧ load p x.block = .ok y.block ∧ reply = .ok))) ∨
    (op = .step ∧ (step x.block = .next y.block ∧ reply = .ok ∨
      ∃ f, step x.block = .fault f ∧ y.block = resume f ∧ reply = .failed f.kind)) ∨
    (∃ name, op = .getRegister name ∧
      ((∃ r, name = regText r ∧ y.block = x.block.rbCursor (slotOffset (regSlot r) + 2) ∧
          reply = .value (x.block.reg r)) ∨
       ((∀ r, name ≠ regText r) ∧ y.block = x.block ∧ reply = .failed .registerNotFound))) ∨
    (∃ name v, op = .setRegister name v ∧
      ((∃ r, name = regText r ∧ y.block = x.block.putReg r v ∧ reply = .ok) ∨
       ((∀ r, name ≠ regText r) ∧ y.block = x.block ∧ reply = .failed .registerNotFound))) ∨
    (op = .debug ∧ reply = .lines x.block.dump ∧
      ∃ o, y.block = x.block.rbCursor o ∧ (o = x.block.rb.rc ∨ o ≤ 20)) := by
  cases op with
  | construct n =>
    by_cases hn : n ≤ 65536
    · simp [perform, construct, Config.maxMemSize, hn] at h
      exact .inl ⟨n, rfl, hn, h.2.symm, h.1.symm⟩
    · simp [perform, construct, Config.maxMemSize, hn] at h
  | load p =>
    by_cases hm : x.mayLoad = true
    · refine .inr (.inl ⟨p, rfl, hm, ?_⟩)
      by_cases hl : x.block.memSize < p.length
      · simp [perform, hm, load_eq, hl, Except.map, finish, resume] at h
        exact .inl ⟨hl, by rw [← h.2], h.1.symm⟩
      · refine .inr ⟨by omega, ?_⟩
        simp [perform, hm, load_eq, hl, Except.map, finish] at h
        rw [load_eq, if_neg hl]
        exact ⟨by rw [← h.2], h.1.symm⟩
    · simp [perform, hm] at h
  | step =>
    refine .inr (.inr (.inl ⟨rfl, ?_⟩))
    simp only [perform] at h
    cases hs : step x.block with
    | next s => rw [hs] at h; simp at h; exact .inl ⟨by rw [← h.2], h.1.symm⟩
    | fault f => rw [hs] at h; simp at h; exact .inr ⟨f, rfl, by rw [← h.2], h.1.symm⟩
    | refused r => exact absurd hs (step_not_refused _ _)
  | getRegister name =>
    refine .inr (.inr (.inr (.inl ⟨name, rfl, ?_⟩)))
    rcases name_cases name with ⟨r, rfl⟩ | hn
    · simp [perform, getRegister_regText, Except.map, finish] at h
      exact .inl ⟨r, rfl, by rw [← h.2], h.1.symm⟩
    · simp [perform, getRegister_none hn, Except.map, finish, resume] at h
      exact .inr ⟨hn, by rw [← h.2], h.1.symm⟩
  | setRegister name v =>
    refine .inr (.inr (.inr (.inr (.inl ⟨name, v, rfl, ?_⟩))))
    rcases name_cases name with ⟨r, rfl⟩ | hn
    · simp [perform, setRegister_regText, Except.map, finish] at h
      exact .inl ⟨r, rfl, by rw [← h.2], h.1.symm⟩
    · simp [perform, setRegister_none hn, Except.map, finish, resume] at h
      exact .inr ⟨hn, by rw [← h.2], h.1.symm⟩
  | debug =>
    refine .inr (.inr (.inr (.inr (.inr ⟨rfl, ?_⟩))))
    obtain ⟨o, e, ho⟩ := debug_eq x.block
    simp [perform, e, Except.map, finish] at h
    exact ⟨h.1.symm, o, by rw [← h.2], ho⟩

end Sys2Proof.Machine
end

