-- ==== Sys2Proof/Laws/PerInstr.lean ====
section
/-! SUPPORT. Facts of every instruction as syntax, one lemma for each constructor. -/

namespace Sys2Proof.Laws.EncodedLength

/-- Every instruction is three bytes long, whatever its operands (R46). -/
def Statement (i : Instr) : Prop := (encode i).length = 3

theorem movLitR1 (lit : Word) : Statement (.movLitR1 lit) := rfl
theorem movLitR2 (lit : Word) : Statement (.movLitR2 lit) := rfl
theorem addRegReg (a b : Byte) : Statement (.addRegReg a b) := rfl

end Sys2Proof.Laws.EncodedLength
end

