-- ==== Sys2Proof/Laws/Run.lean ====
section
/-! SUPPORT. Runs of the machine, one step at a time (spec/44_host_operations.md R90). -/

namespace Sys2Proof.Machine

theorem core_run_zero (s : State) : core.run 0 s = .next s := rfl

/-- A run is a step, then the rest of the run from the state it leaves. -/
theorem core_run_succ (k : Nat) (s : State) :
    core.run (k + 1) s =
      match step s with
      | .next t => core.run k t
      | .fault f => .fault f
      | .refused r => .refused r := by
  cases h : step s with
  | next t =>
    have h' : core.step s = .next t := h
    exact (Host.Core.run.eq_2 core s k).trans (by rw [h'])
  | fault f =>
    have h' : core.step s = .fault f := h
    exact (Host.Core.run.eq_2 core s k).trans (by rw [h'])
  | refused r => exact absurd h (step_not_refused _ _)

theorem runsTo_succ (k : Nat) (s t : State) :
    RunsTo (k + 1) s t ↔ ∃ u, step s = .next u ∧ RunsTo k u t := by
  unfold RunsTo
  rw [core_run_succ]
  cases h : step s with
  | next u => exact ⟨fun hu => ⟨u, rfl, hu⟩, fun ⟨v, hv, hu⟩ => by injection hv with hv; subst hv; exact hu⟩
  | fault f => exact ⟨fun hu => (by cases hu), fun ⟨_, hv, _⟩ => (by cases hv)⟩
  | refused r => exact absurd h (step_not_refused _ _)

end Sys2Proof.Machine
end

