-- ==== Sys2Proof/Tests/Slice0.lean ====
section
/-! SUPPORT. The model's own tests. Expected results come from the spec: the encodings of 30_encoding.md, and the vectors
of 95_test_vectors.md named in the comments. The second half holds, for every statement with hypotheses, a concrete
state and operands that meet them. -/

namespace Sys2Proof.Tests

open Sys2Proof Sys2Proof.Machine

/-! ### Helpers -/

/-- A block of `memSize` bytes with `bytes` placed from address `a` up and `ip = a`, all else as constructed. -/
def placed (memSize a : Nat) (bytes : List Byte) : State :=
  let s := State.constructed memSize
  let s := s.setM { s.m with cells := Memory.writeBytes [] a bytes }
  match setReg .ip (BitVec.ofNat 16 a) s with
  | .ok s => s
  | .error _ => s

/-- `s` with a register set. -/
def withReg (s : State) (r : RegName) (v : Word) : State :=
  match setReg r v s with
  | .ok s => s
  | .error _ => s

/-- `s` with a byte of program memory set. -/
def withByte (s : State) (a : Nat) (b : Byte) : State := s.setM { s.m with cells := s.m.cells.write a b }

/-- The outcome is a next state with the registers listed. -/
def nextHas (o : Host.Outcome State Fault Refusal) (l : List (RegName × Word)) : Bool :=
  match o with
  | .next t => l.all (fun p => t.reg p.1 == p.2)
  | .fault _ => false
  | .refused _ => false

/-- The outcome is a failure of kind `k` that leaves the registers listed. -/
def failHas (o : Host.Outcome State Fault Refusal) (k : FailureKind) (l : List (RegName × Word)) : Bool :=
  match o with
  | .next _ => false
  | .fault f => f.kind == k && l.all (fun p => (resume f).reg p.1 == p.2)
  | .refused _ => false

/-- The text of the first line of a dump. -/
def firstLine (o : Except Fault (List String × State)) : String :=
  match o with
  | .ok (l :: _, _) => l
  | .ok ([], _) => ""
  | .error _ => ""

/-! ### Well-formedness: an ill-formed term for each check -/

theorem test_wf_slot9 : (Instr.addRegReg 9#8 0#8).wellFormed = true := by decide
theorem test_wf_refuses_slotA_10 : (Instr.addRegReg 10#8 0#8).wellFormed = false := by decide
theorem test_wf_refuses_slotB_10 : (Instr.addRegReg 0#8 10#8).wellFormed = false := by decide

/-! ### Decoding: words written out bit by bit from R47, R48, R51 -/

theorem test_decode_movLitR1 :
    decode [0b00010000#8, 0b00010010#8, 0b00110100#8] = .instr (.movLitR1 0b0001001000110100#16) [] := by decide
theorem test_decode_movLitR2 :
    decode [0b00010001#8, 0b10101011#8, 0b11001101#8] = .instr (.movLitR2 0b1010101111001101#16) [] := by decide
theorem test_decode_addRegReg :
    decode [0b00010010#8, 0b00000010#8, 0b00000011#8, 0xFF#8] =
      .instr (.addRegReg 0b00000010#8 0b00000011#8) [0xFF#8] := by decide
/-- The neighbours of the opcode set (V-UNK-2, V-UNK-3). -/
theorem test_decode_illegal :
    decode [0x0F#8, 1#8, 2#8] = .unknownOpcode 0x0F#8 ∧ decode [0x13#8] = .unknownOpcode 0x13#8 := by decide
theorem test_encode_addRegReg : encode (.addRegReg 2#8 3#8) = [0x12#8, 0x02#8, 0x03#8] := by decide
/-- The table's view (R56): MOV_LIT_R1 0x1234 is 0x101234; the same bytes the other way round are no instruction. -/
theorem test_tableWord : decodeTableWord 24 0x101234 = some (.movLitR1 0x1234#16) ∧ decodeTableWord 24 0x341210 = none := by
  decide

/-! ### One step -/

/-- V-MOV-9: `ip` wraps past the top of a full-size memory. -/
theorem test_movLitR1_ip_wraps :
    nextHas (step (placed 65536 0xFFFD [0x10#8, 0xAB#8, 0xCD#8])) [(.ip, 0#16), (.r1, 0xABCD#16)] = true := by decide
/-- V-MOV-10: the literal would straddle the end of memory. -/
theorem test_movLitR1_literal_straddles :
    failHas (step (placed 65536 0xFFFE [0x10#8, 0xAB#8])) .outOfBounds [(.ip, 0xFFFF#16), (.r1, 0#16)] = true := by decide
/-- V-MOV-3: the high byte comes first and `r1` is untouched. -/
theorem test_movLitR2_big_endian :
    nextHas (step (withReg (placed 8 0 [0x11#8, 0#8, 1#8]) .r1 0x5555#16))
      [(.ip, 3#16), (.r2, 1#16), (.r1, 0x5555#16)] = true := by decide
/-- V-MOV-11: the opcode at the last address, the literal at addresses 0 and 1. -/
theorem test_movLitR2_opcode_at_top :
    nextHas (step (withByte (withByte (placed 65536 0xFFFF [0x11#8]) 0 0x12#8) 1 0x34#8))
      [(.ip, 2#16), (.r2, 0x1234#16)] = true := by decide
/-- V-ADD-11: slot 0 is the next instruction's address, slot 1 the old `acc`. -/
theorem test_addRegReg_reads_ip_and_acc :
    nextHas (step (withReg (placed 16 9 [0x12#8, 0#8, 1#8]) .acc 0x0100#16)) [(.ip, 12#16), (.acc, 0x010C#16)] = true := by
  decide
/-- V-ADD-21: the fetch of `B` fails before the bad slot `A` is read. -/
theorem test_addRegReg_fetch_before_slot :
    failHas (step (placed 2 0 [0x12#8, 0xC8#8])) .outOfBounds [(.ip, 2#16), (.acc, 0#16)] = true := by decide
/-- V-UNK-5: an illegal opcode in the last byte is not OutOfBounds. -/
theorem test_illegal_in_last_byte :
    failHas (step (placed 1 0 [0x99#8])) (.unknownInstruction 0x99#8) [(.ip, 1#16)] = true := by decide
/-- V-HOST-9, its first line. -/
theorem test_debug_line : firstLine (debug (placed 16 9 [])) = "ip: 0x0009\n" := by decide
/-- S-C: nine bytes do not fit in four, and nothing is written. -/
theorem test_load_too_long :
    load [0x10#8, 0x12#8, 0x34#8, 0x11#8, 0xAB#8, 0xCD#8, 0x12#8, 2#8, 3#8] (State.constructed 4) =
      .error (.outOfBounds (State.constructed 4)) := by rfl

/-! ### Witnesses: states and operands that meet the hypotheses of each statement -/

/-- IllegalOpcodeFailsCarryingTheByte: an illegal opcode in the last byte of memory, both neighbours of the set. -/
theorem witness_illegal : (placed 1 0 [0x13#8]).a0.toNat < (placed 1 0 [0x13#8]).memSize ∧
    IllegalOpcode ((placed 1 0 [0x13#8]).at (placed 1 0 [0x13#8]).a0) ∧ IllegalOpcode 0x0F#8 :=
  ⟨by decide, ⟨by decide, by decide, by decide⟩, ⟨by decide, by decide, by decide⟩⟩
theorem witness_illegal_converse : ∃ t, step (placed 1 0 [0x13#8]) = .fault (.unknownInstruction 0x13#8 t) := ⟨_, rfl⟩

/-- StepRunsDecodedInstruction: each instruction with its last byte at the end of memory, and one across the top. -/
theorem witness_stepRuns_movLitR1 :
    let s := placed 3 0 [0x10#8, 0x12#8, 0x34#8]
    s.wf = true ∧ s.a0.toNat < s.memSize ∧ decode s.instrBytes = .instr (.movLitR1 0x1234#16) [] ∧
      s.OperandsFit (.movLitR1 0x1234#16) :=
  ⟨by decide, by decide, by decide, by change (_ : Nat) ≤ _; decide⟩
theorem witness_stepRuns_movLitR2 :
    let s := placed 65536 0xFFFD [0x11#8, 0xAB#8, 0xCD#8]
    s.wf = true ∧ s.a0.toNat < s.memSize ∧ decode s.instrBytes = .instr (.movLitR2 0xABCD#16) [] ∧
      s.OperandsFit (.movLitR2 0xABCD#16) :=
  ⟨by decide, by decide, by decide, by change (_ : Nat) ≤ _; decide⟩
theorem witness_stepRuns_addRegReg :
    let s := withByte (placed 65536 0xFFFE [0x12#8, 2#8]) 0 3#8
    s.wf = true ∧ s.a0.toNat < s.memSize ∧ decode s.instrBytes = .instr (.addRegReg 2#8 3#8) [] ∧
      s.OperandsFit (.addRegReg 2#8 3#8) :=
  ⟨by decide, by decide, by decide, by change (_ : Nat) < _ ∧ (_ : Nat) < _; decide⟩

/-- PlacedInstructionRuns: the highest `ip` it speaks of. -/
theorem witness_placed : (placed 65536 65533 []).a0.toNat + 3 ≤ 65536 := by decide

/-- FetchReadsByteAndAdvances, FetchWordReadsWordAndAdvances: the last byte or word of memory, and one past it. -/
theorem witness_fetch : (placed 4 3 []).a0.toNat < (placed 4 3 []).memSize ∧
    (placed 4 4 []).memSize ≤ (placed 4 4 []).a0.toNat := by decide
theorem witness_fetchWord : (placed 4 2 []).a0.toNat + 2 ≤ (placed 4 2 []).memSize ∧
    (placed 4 3 []).memSize < (placed 4 3 []).a0.toNat + 2 := by decide

/-- MemReadByteContract, MemReadWordContract, ProgramMemoryWrites (its first two clauses): last fitting and first failing
addresses of four bytes; RegBankReadContract, RegBankWriteContract: offsets 18 and 19, slot 10. -/
theorem witness_addresses : 3 < (State.constructed 4).memSize ∧ (State.constructed 4).memSize ≤ 4 ∧
    2 + 2 ≤ (State.constructed 4).memSize ∧ (State.constructed 4).memSize < 3 + 2 ∧ 18 + 2 ≤ 20 ∧ 20 < 19 + 2 ∧ 10 ≤ 10 := by
  decide
/-- ByteReadsSplitAWordRead: the last word of memory. -/
theorem witness_wordRead : ∃ w t, memReadWord 2 (State.constructed 4) = .ok (w, t) := ⟨_, _, rfl⟩
/-- ProgramMemoryWrites (third clause), CursorsStayInBounds, HostOperationsKeepWellFormed, ConstructZeroFills (second
clause): an operation that is neither a load nor a construction, on a canonical block with cursors in bounds. -/
theorem witness_perform : (∃ reply y, perform .step (some ⟨State.reset, true⟩) = .ok (reply, y)) ∧
    (∀ p, HostOp.step ≠ .load p) ∧ (∀ n, HostOp.step ≠ .construct n) ∧ State.reset.wf = true ∧
    State.reset.memSize ≤ 65536 ∧ CursorBounds State.reset :=
  ⟨⟨_, _, rfl⟩, fun _ h => (by cases h), fun _ h => (by cases h), by decide, by decide,
    ⟨by decide, by decide, by decide, by decide⟩⟩
/-- CanonicalMemoryIsUnique: a canonical memory that lists its last byte. -/
theorem witness_canonical : Memory.wf 4 [(0, 1#8), (3, 0xFF#8)] = true := by decide

/-- GetRegisterReadsByName, SetRegisterWritesByName, RegisterNotFoundOnlyFromNames: names outside the set (V-HOST-4). -/
theorem witness_names : (∀ r, "r9" ≠ regText r) ∧ (∀ r, "" ≠ regText r) ∧ ∀ r, "IP" ≠ regText r := by
  refine ⟨fun r => ?_, fun r => ?_, fun r => ?_⟩ <;> cases r <;> decide
/-- RegisterNotFoundOnlyFromNames (second clause). -/
theorem witness_notFound :
    ∃ y, perform (.getRegister "r9") (some ⟨State.reset, true⟩) = .ok (.failed .registerNotFound, y) := ⟨_, rfl⟩
/-- SetRegisterWritesByName (third clause): V-HOST-3, and the first address beyond memory; HostWritesAreSeenByTheNextStep
(second clause): the last address in it. -/
theorem witness_setIp : (∃ t, setRegister "ip" 0xFFFF#16 (State.constructed 16) = .ok t) ∧
    (State.constructed 16).memSize ≤ (0xFFFF#16).toNat ∧ (State.constructed 16).memSize ≤ (16#16).toNat ∧
    (15#16).toNat < (State.constructed 16).memSize := ⟨⟨_, rfl⟩, by decide, by decide, by decide⟩
/-- HostWritesAreSeenByTheNextStep (first clause): `r8` written, then read as `A`, as `B` beside `acc`, and as both. -/
theorem witness_setR8 :
    let both := withReg (placed 3 0 [0x12#8, 9#8, 9#8]) .r8 1#16
    let first := withReg (placed 3 0 [0x12#8, 9#8, 1#8]) .r8 1#16
    let second := withReg (placed 3 0 [0x12#8, 1#8, 9#8]) .r8 1#16
    (setRegister (regText .r8) 1#16 (placed 3 0 [0x12#8, 9#8, 9#8]) = .ok both ∧ both.Opcode 0x12#8 ∧ both.SlotsFit ∧
      (both.at both.a1).toNat = regSlot .r8 ∧ (both.at both.a2).toNat = regSlot .r8) ∧
    (setRegister (regText .r8) 1#16 (placed 3 0 [0x12#8, 9#8, 1#8]) = .ok first ∧ first.Opcode 0x12#8 ∧ first.SlotsFit ∧
      (first.at first.a1).toNat = regSlot .r8 ∧ (first.at first.a2).toNat ≤ 9) ∧
    setRegister (regText .r8) 1#16 (placed 3 0 [0x12#8, 1#8, 9#8]) = .ok second ∧ second.Opcode 0x12#8 ∧ second.SlotsFit ∧
      (second.at second.a1).toNat ≤ 9 ∧ (second.at second.a2).toNat = regSlot .r8 :=
  ⟨⟨rfl, ⟨by decide, by decide⟩, ⟨by decide, by decide⟩, by decide, by decide⟩,
    ⟨rfl, ⟨by decide, by decide⟩, ⟨by decide, by decide⟩, by decide, by decide⟩,
    rfl, ⟨by decide, by decide⟩, ⟨by decide, by decide⟩, by decide, by decide⟩
/-- HostWritesAreSeenByTheNextStep (last clause): `ip` written with the address of an ADD_REG_REG 0, 0. -/
theorem witness_setIp_slot0 :
    let s := withReg (placed 8 5 [0x12#8, 0#8, 0#8]) .ip 0#16
    let t := withReg s .ip 5#16
    setRegister "ip" 5#16 s = .ok t ∧ t.Opcode 0x12#8 ∧ t.SlotsFit ∧ t.at t.a1 = 0#8 ∧ t.at t.a2 = 0#8 :=
  ⟨rfl, ⟨by decide, by decide⟩, ⟨by decide, by decide⟩, by decide, by decide⟩
/-- SetRegisterWritesByName (last clause): an operation that is neither a construction nor a write of `ip`. -/
theorem witness_leaves_ip : (∃ reply y, perform .step (some ⟨State.reset, true⟩) = .ok (reply, y)) ∧
    (∀ n, HostOp.step ≠ .construct n) ∧ (∀ v, HostOp.step ≠ .setRegister "ip" v) ∧
    (∃ reply y, perform (.setRegister "r1" 7#16) (some ⟨State.reset, true⟩) = .ok (reply, y)) ∧
    ∀ v, HostOp.setRegister "r1" 7#16 ≠ .setRegister "ip" v :=
  ⟨⟨_, _, rfl⟩, fun _ h => (by cases h), fun _ h => (by cases h), ⟨_, _, rfl⟩,
    fun _ h => absurd (HostOp.setRegister.inj h).1 (by decide)⟩
/-- OutOfBoundsCauses (last clause): a step and a load that are answered with it. -/
theorem witness_outOfBounds_reply :
    (∃ y, perform .step (some ⟨State.constructed 0, true⟩) = .ok (.failed .outOfBounds, y)) ∧
    ∃ y, perform (.load [1#8]) (some ⟨State.constructed 0, true⟩) = .ok (.failed .outOfBounds, y) := ⟨⟨_, rfl⟩, _, rfl⟩

/-- AddRegRegWritesTheSum, LegalOperandsExactlyExecute: the highest legal and the lowest illegal slot. -/
theorem witness_slots : (9#8).toNat ≤ 9 ∧ 10 ≤ (10#8).toNat := by decide
/-- SumWrapsModulo65536: the largest exact sum and the smallest that wraps. -/
theorem witness_sum : (0x7FFF#16).toNat + (0x8000#16).toNat ≤ 65535 ∧ 65536 ≤ (0xFFFF#16).toNat + (1#16).toNat := by decide

/-- LiteralMoveStep, and the rows of FailureTable and OutOfBoundsCauses for literal moves: the exact fit (V-MOV-8) and one
byte short (V-MOV-6), for both instructions. -/
theorem witness_literal_fits : (placed 3 0 [0x10#8]).Opcode 0x10#8 ∧
    (placed 3 0 [0x10#8]).a1.toNat + 2 ≤ (placed 3 0 [0x10#8]).memSize ∧ (placed 3 0 [0x11#8]).Opcode 0x11#8 ∧
    (placed 3 0 [0x11#8]).a1.toNat + 2 ≤ (placed 3 0 [0x11#8]).memSize :=
  ⟨⟨by decide, by decide⟩, by decide, ⟨by decide, by decide⟩, by decide⟩
theorem witness_literal_short : (placed 2 0 [0x10#8]).Opcode 0x10#8 ∧
    (placed 2 0 [0x10#8]).memSize < (placed 2 0 [0x10#8]).a1.toNat + 2 ∧ (placed 2 0 [0x11#8]).Opcode 0x11#8 ∧
    (placed 2 0 [0x11#8]).memSize < (placed 2 0 [0x11#8]).a1.toNat + 2 :=
  ⟨⟨by decide, by decide⟩, by decide, ⟨by decide, by decide⟩, by decide⟩
/-- LiteralMoveReadsNoGeneralRegister: two states that differ in `r5` and `r1`, with MOV_LIT_R1 and MOV_LIT_R2. -/
theorem witness_literal_two_states :
    let s := placed 3 0 [0x10#8, 1#8, 2#8]
    let s' := withReg (withReg s .r5 7#16) .r1 9#16
    s.Opcode 0x10#8 ∧ s'.memSize = s.memSize ∧ (∀ a, s'.byte a = s.byte a) ∧ s'.reg .ip = s.reg .ip ∧
      s'.reg .r5 ≠ s.reg .r5 := ⟨⟨by decide, by decide⟩, rfl, fun _ => rfl, by decide, by decide⟩
theorem witness_literal_two_states_r2 :
    let s := placed 3 0 [0x11#8, 1#8, 2#8]
    let s' := withReg s .r2 9#16
    s.Opcode 0x11#8 ∧ s'.memSize = s.memSize ∧ (∀ a, s'.byte a = s.byte a) ∧ s'.reg .ip = s.reg .ip ∧
      s'.reg .r2 ≠ s.reg .r2 := ⟨⟨by decide, by decide⟩, rfl, fun _ => rfl, by decide, by decide⟩

/-- AddRegRegStep and the last row of FailureTable: an exact fit with the highest legal slots. -/
theorem witness_add :
    let s := placed 3 0 [0x12#8, 9#8, 9#8]
    s.Opcode 0x12#8 ∧ s.SlotsFit ∧ (s.at s.a1).toNat ≤ 9 ∧ (s.at s.a2).toNat ≤ 9 :=
  ⟨⟨by decide, by decide⟩, ⟨by decide, by decide⟩, by decide, by decide⟩
/-- SlotReadsSeeIpPastTheInstruction: V-ADD-10 and V-ADD-7. -/
theorem witness_add_slot0 :
    let s := placed 8 0 [0x12#8, 0#8, 0#8]
    s.Opcode 0x12#8 ∧ s.SlotsFit ∧ s.at s.a1 = 0#8 ∧ s.at s.a2 = 0#8 :=
  ⟨⟨by decide, by decide⟩, ⟨by decide, by decide⟩, by decide, by decide⟩
theorem witness_add_slot1 :
    let s := placed 8 0 [0x12#8, 1#8, 1#8]
    s.Opcode 0x12#8 ∧ s.SlotsFit ∧ s.at s.a1 = 1#8 ∧ s.at s.a2 = 1#8 :=
  ⟨⟨by decide, by decide⟩, ⟨by decide, by decide⟩, by decide, by decide⟩

/-- FailureTable row 1, OpcodeFetchFailureRepeats: `ip` at MEM_SIZE. -/
theorem witness_row1 : (placed 4 4 []).memSize ≤ (placed 4 4 []).a0.toNat ∧ ∃ f, step (placed 4 4 []) = .fault f :=
  ⟨by decide, _, rfl⟩
/-- FailureTable row 4 (V-ADD-19). -/
theorem witness_row4 : (placed 1 0 [0x12#8]).Opcode 0x12#8 ∧ (placed 1 0 [0x12#8]).memSize ≤ (placed 1 0 [0x12#8]).a1.toNat :=
  ⟨⟨by decide, by decide⟩, by decide⟩
/-- FailureTable row 5 and the first clause of StepAfterFailedAddition (V-ADD-21). -/
theorem witness_row5 :
    let s := placed 2 0 [0x12#8, 0xC8#8]
    s.Opcode 0x12#8 ∧ s.a1.toNat < s.memSize ∧ s.memSize ≤ s.a2.toNat ∧ ∃ f, step s = .fault f :=
  ⟨⟨by decide, by decide⟩, by decide, by decide, _, rfl⟩
/-- FailureTable row 6 and the second clause of StepAfterFailedAddition (V-ADD-15). -/
theorem witness_row6 :
    let s := placed 3 0 [0x12#8, 0x0A#8, 2#8]
    s.Opcode 0x12#8 ∧ s.SlotsFit ∧ 10 ≤ (s.at s.a1).toNat ∧ s.a2.toNat < s.memSize ∧ ∃ f, step s = .fault f :=
  ⟨⟨by decide, by decide⟩, ⟨by decide, by decide⟩, by decide, by decide, _, rfl⟩
/-- FailureTable row 7 (V-ADD-16). -/
theorem witness_row7 :
    let s := placed 3 0 [0x12#8, 9#8, 0x0A#8]
    s.Opcode 0x12#8 ∧ s.SlotsFit ∧ (s.at s.a1).toNat ≤ 9 ∧ 10 ≤ (s.at s.a2).toNat :=
  ⟨⟨by decide, by decide⟩, ⟨by decide, by decide⟩, by decide, by decide⟩
/-- FailureTable, the failed host operations; LoadWritesAllOrNothing: one byte too many, and the exact fit. -/
theorem witness_failed_host : (∃ f, getRegister "r9" State.reset = .error f) ∧
    (∃ f, setRegister "r0" 1#16 State.reset = .error f) ∧ (∃ f, load [1#8, 2#8] (State.constructed 1) = .error f) ∧
    [1#8, 2#8].length ≤ (State.constructed 2).memSize ∧ (State.constructed 1).memSize < [1#8, 2#8].length :=
  ⟨⟨_, rfl⟩, ⟨_, rfl⟩, ⟨_, rfl⟩, by decide, by decide⟩

/-- StepDependsOnMemoryAndRegistersOnly: two states that differ in every cursor. -/
theorem witness_cursors :
    let s := placed 3 0 [0x12#8, 2#8, 2#8]
    let s' : State := { s with m := { s.m with rc := 7, wc := 8 }, rb := { s.rb with rc := 9, wc := 10 } }
    SameObservable s s' ∧ s' ≠ s := ⟨⟨rfl, fun _ => rfl, fun _ _ => rfl⟩, by decide⟩
/-- StepFrame, StepKeepsWellFormed, SetRegisterWritesByName (fourth and fifth clause): a canonical state whose step completes, and
one whose step fails. -/
theorem witness_next_and_fault : (placed 3 0 [0x10#8, 1#8, 2#8]).wf = true ∧
    (∃ t, step (placed 3 0 [0x10#8, 1#8, 2#8]) = .next t) ∧ (placed 3 0 [0x12#8, 10#8, 2#8]).wf = true ∧
    ∃ f, step (placed 3 0 [0x12#8, 10#8, 2#8]) = .fault f := ⟨by decide, ⟨_, rfl⟩, by decide, _, rfl⟩
/-- ResetState, ConstructZeroFills, ResetWellFormed: the least and the largest capacity they speak of. -/
theorem witness_capacity : 1 ≤ 1 ∧ 65536 ≤ 65536 := by decide
/-- RunsAreStraightLine: two steps that complete. -/
theorem witness_run : ∃ t, RunsTo 2 (placed 6 0 [0x10#8, 1#8, 2#8, 0x11#8, 3#8, 4#8]) t := ⟨_, rfl⟩
/-- EveryRunEnds: the largest memory; RunFromZeroEndsInBoundedSteps: the largest below it, with `ip = 0`. -/
theorem witness_memSize : (State.constructed 65536).memSize ≤ 65536 ∧ (State.constructed 65535).memSize < 65536 ∧
    (State.constructed 65535).reg .ip = 0#16 := by decide
/-- HostOperationOrder: an operation that is no construction, the four run-time ones, and a step that fails. -/
theorem witness_order : (∀ n, HostOp.debug ≠ .construct n) ∧ ∃ f, step State.reset = .fault f :=
  ⟨fun _ h => (by cases h), _, rfl⟩

end Sys2Proof.Tests
end

section
/-! Program memory: what each access primitive answers (R31, R35), and that the load and construction alone write it. -/

namespace Sys2Proof.Machine

/-! ### The frame of one step (R65) -/

/-- A step that completes changes `ip` and its destination, `r1`, `r2` or `acc`, and nothing else. -/
theorem sameBut_of_step_next {s t : State} (h : step s = .next t) :
    SameBut [.ip, .r1] s t ∨ SameBut [.ip, .r2] s t ∨ SameBut [.ip, .acc] s t := by
  have frame : ∀ {u : State} {r : RegName} {v : Word}, SameBut [.ip] s u → SameBut [.ip, r] s (u.putReg r v) :=
    fun hu => (hu.mono (by simp)).trans ((SameBut.putReg _ _ _).mono (by simp))
  obtain ⟨_, e⟩ | ⟨_, _, e⟩ | ⟨_, _, e⟩ | ⟨_, _, e⟩ | ⟨_, _, _, e⟩ | ⟨_, _, _, e⟩ | ⟨_, _, _, _, e⟩ | ⟨_, _, e⟩ |
    ⟨_, _, e⟩ | ⟨_, _, _, _, e⟩ := step_cases s
  all_goals cases e.symm.trans h
  · exact .inl (frame (SameBut.pastLit s))
  · exact .inr (.inl (frame (SameBut.pastLit s)))
  · exact .inr (.inr (frame ((SameBut.pastSlots s).trans ((SameBut.rbCursor _ _).mono (by simp)))))

/-- A step that fails changes `ip` alone. -/
theorem sameBut_of_step_fault {s : State} {f : Fault} (h : step s = .fault f) : SameBut [.ip] s (resume f) := by
  have one := SameBut.advance s 1
  have two := one.trans (SameBut.advance _ 1)
  have stuck : ∀ u : State, SameBut [.ip] u u.stuck := fun u => (SameBut.stuck u).mono (by simp)
  have pastSlots : ∀ o, SameBut [.ip] s (s.pastSlots.rbCursor o) :=
    fun o => (SameBut.pastSlots s).trans ((SameBut.rbCursor _ o).mono (by simp))
  obtain ⟨_, e⟩ | ⟨_, _, e⟩ | ⟨_, _, e⟩ | ⟨_, _, e⟩ | ⟨_, _, _, e⟩ | ⟨_, _, _, e⟩ | ⟨_, _, _, _, e⟩ | ⟨_, _, e⟩ |
    ⟨_, _, e⟩ | ⟨_, _, _, _, e⟩ := step_cases s
  all_goals cases e.symm.trans h
  · exact stuck s
  · exact one
  · exact one.trans (stuck _)
  · exact one.trans (stuck _)
  · exact two.trans (stuck _)
  · exact pastSlots _
  · exact pastSlots _

/-! ### Program memory (R31, R35) -/

/-- Only the load and a construction write program memory: each other operation of the host moves cursors, writes
registers, or is a step, which has its frame. -/
theorem perform_byte {op : HostOp} {x y : Session} {reply : Reply} (h : perform op (some x) = .ok (reply, y))
    (hl : ∀ p, op ≠ .load p) (hc : ∀ n, op ≠ .construct n) (a : Nat) : y.block.byte a = x.block.byte a := by
  obtain ⟨n, e, _⟩ | ⟨p, e, _⟩ | ⟨_, hs⟩ | ⟨_, _, hg⟩ | ⟨_, _, _, hs⟩ | ⟨_, _, o, e, _⟩ := perform_cases h
  · exact absurd e (hc n)
  · exact absurd e (hl p)
  · obtain ⟨e, _⟩ | ⟨f, e, ey, _⟩ := hs
    · obtain ⟨_, hb, _⟩ | ⟨_, hb, _⟩ | ⟨_, hb, _⟩ := sameBut_of_step_next e <;> exact hb a
    · obtain ⟨_, hb, _⟩ := sameBut_of_step_fault e
      exact ey ▸ hb a
  · obtain ⟨_, _, e, _⟩ | ⟨_, e, _⟩ := hg <;> simp [e]
  · obtain ⟨_, _, e, _⟩ | ⟨_, e, _⟩ := hs <;> simp [e]
  · simp [e]

/-- Settles O10: the two branches of the bounds check of `MemRead(a, 1)`. -/
theorem memReadByteContract : Obligations.MemReadByteContract := by
  intro a s
  rw [memReadByte_eq]
  constructor
  · intro h
    rw [if_neg (by omega)]
    exact ⟨_, rfl, rfl, rfl, rfl, rfl, rfl⟩
  · intro h
    rw [if_pos h]
    exact ⟨_, rfl, rfl, rfl, rfl, rfl, rfl⟩

/-- Settles O13: both writes by the branches of their bounds checks and read after write, and `perform_byte`. -/
theorem programMemoryWrites : Obligations.ProgramMemoryWrites := by
  refine ⟨fun a b s => ?_, fun a w s => ?_, fun _ _ _ _ h hl hc => perform_byte h hl hc⟩
  · rw [memWriteByte_eq]
    constructor
    · intro h
      rw [if_neg (by omega)]
      exact ⟨_, rfl, by simp, fun x hx => by simp [State.byte, Ne.symm hx], rfl, rfl, rfl, rfl⟩
    · intro h
      rw [if_pos h]
      exact ⟨_, rfl, rfl, rfl, rfl, rfl, rfl⟩
  · rw [memWriteWord_eq]
    constructor
    · intro h
      rw [if_neg (by omega)]
      exact ⟨_, rfl, by simp, by simp, fun x ha ha1 => by simp [State.byte, Ne.symm ha, Ne.symm ha1],
        rfl, rfl, rfl, rfl⟩
    · intro h
      rw [if_pos h]
      exact ⟨_, rfl, rfl, rfl, rfl, rfl, rfl⟩

end Sys2Proof.Machine
end

section
/-! Encoding: which first byte, and which operands, are legal (R53, R55), and what the illegal ones answer (R63, R96). -/

namespace Sys2Proof.Machine

/-! ### Illegal opcode bytes (R53) -/

/-- The numerals of R53 are the three opcodes. -/
theorem illegalOpcode_iff (op : Byte) :
    IllegalOpcode op ↔ op ≠ opMovLitR1 ∧ op ≠ opMovLitR2 ∧ op ≠ opAddRegReg := Iff.rfl

/-- The opcode map has no entry exactly for the illegal bytes. -/
theorem shapeOf_eq_none_iff (op : Byte) : shapeOf op = none ↔ IllegalOpcode op := by
  rw [illegalOpcode_iff]
  obtain ⟨rfl, _⟩ | ⟨rfl, _⟩ | ⟨rfl, _⟩ | ⟨n1, n2, n3, e⟩ := shapeOf_cases op
  · simp
  · simp
  · simp
  · simp [e, n1, n2, n3]

/-- A byte the opcode map has an entry for is never refused: the operands decode or are missing. -/
theorem decode_ne_unknownOpcode {op : Byte} {shape : Shape} (h : shapeOf op = some shape) (rest : List Byte)
    (op' : Byte) : decode (op :: rest) ≠ .unknownOpcode op' := by
  rw [decode_cons, h]
  match shape, rest with
  | .lit16 _, [] | .lit16 _, [_] | .lit16 _, _ :: _ :: _ => simp
  | .slot2 _, [] | .slot2 _, [_] | .slot2 _, _ :: _ :: _ => simp

/-- The decoder refuses by the first byte alone. -/
theorem decode_eq_unknownOpcode_iff (op : Byte) (rest : List Byte) :
    decode (op :: rest) = .unknownOpcode op ↔ IllegalOpcode op := by
  rw [← shapeOf_eq_none_iff]
  cases h : shapeOf op with
  | none => simp [decode_cons, h]
  | some shape => simp [decode_ne_unknownOpcode h]

/-- `execute` on an illegal byte takes the last arm (R62, R63). -/
theorem executePseudo_of_illegal {op : Byte} (h : IllegalOpcode op) (s : State) :
    executePseudo op s = .error (.unknownInstruction op s) := by
  obtain ⟨h1, h2, h3⟩ := (illegalOpcode_iff op).1 h
  rw [executePseudo, if_neg h1, if_neg h2, if_neg h3, raise]

/-- Row 2 of R99, as what the host observes. -/
theorem failsAt_of_illegal {s : State} (h : s.a0.toNat < s.memSize) (hi : IllegalOpcode (s.at s.a0)) :
    FailsAt (.unknownInstruction (s.at s.a0)) s.a1 s :=
  ⟨_, step_of_illegal h hi, rfl, s.advance_one_reg_ip, SameBut.advance s 1⟩

/-- UnknownInstruction has one cause (R96): of all a step can do, only row 2 of R99 answers it. -/
theorem illegal_of_step_unknownInstruction {s t : State} {op : Byte}
    (h : step s = .fault (.unknownInstruction op t)) :
    s.a0.toNat < s.memSize ∧ op = s.at s.a0 ∧ IllegalOpcode op := by
  obtain ⟨_, e⟩ | ⟨hlt, hi, e⟩ | ⟨_, _, e⟩ | ⟨_, _, e⟩ | ⟨_, _, _, e⟩ | ⟨_, _, _, e⟩ | ⟨_, _, _, _, e⟩ | ⟨_, _, e⟩ |
    ⟨_, _, e⟩ | ⟨_, _, _, _, e⟩ := step_cases s
  all_goals cases e.symm.trans h
  exact ⟨hlt, rfl, (illegalOpcode_iff _).2 hi⟩

/-- Settles O4: the decoder, `execute` and the step on an illegal byte, and the one cause of UnknownInstruction. -/
theorem illegalOpcodeFailsCarryingTheByte : Obligations.IllegalOpcodeFailsCarryingTheByte :=
  ⟨decode_eq_unknownOpcode_iff, fun _ s h => executePseudo_of_illegal h s, fun _ => failsAt_of_illegal,
    fun _ _ _ => illegal_of_step_unknownInstruction⟩

/-! ### Legal operands (R55) -/

/-- Settles O25: the literal moves by their closed forms; ADD_REG_REG by the two range checks of its slot reads, `A`
first. -/
theorem legalOperandsExactlyExecute : Obligations.LegalOperandsExactlyExecute := by
  refine ⟨fun lit s => ⟨⟨_, exec_movLitR1 lit s⟩, _, exec_movLitR2 lit s⟩, fun a b s => ?_⟩
  rw [exec_addRegReg]
  constructor
  · rintro ⟨ha, hb⟩
    rw [if_pos (by omega), if_pos (by omega)]
    exact ⟨_, rfl⟩
  · intro h
    by_cases ha : a.toNat < 10
    · rw [if_pos ha, if_neg (by omega)]
      exact ⟨_, rfl, SameBut.rbCursor s _⟩
    · rw [if_neg ha]
      exact ⟨_, rfl, SameBut.rbCursor s _⟩

end Sys2Proof.Machine
end

section
/-! Fetch, decode and dispatch: the whole-instruction `step` is the spec's `fetch` then `execute` (R61, R62), and what it
answers depends on program memory and the registers alone (R64). -/

namespace Sys2Proof.Machine

/-- The step of either literal move, by its destination (R67, R68). -/
theorem step_of_literalMove {s : State} {op : Byte} {r : RegName}
    (hr : (op = opMovLitR1 ∧ r = .r1) ∨ (op = opMovLitR2 ∧ r = .r2)) (o : s.Opcode op) :
    step s = if s.a1.toNat + 2 ≤ s.memSize then .next (s.pastLit.putReg r (s.wordAt s.a1))
      else .fault (.outOfBounds (s.advance 1).stuck) := by
  obtain ⟨rfl, rfl⟩ | ⟨rfl, rfl⟩ := hr
  · exact step_of_movLitR1 o
  · exact step_of_movLitR2 o

/-! ### States that differ at most in their cursors (R26) -/

theorem SameBut.symm {rs : List RegName} {s t : State} (h : SameBut rs s t) : SameBut rs t s :=
  ⟨h.1.symm, fun a => (h.2.1 a).symm, fun r hr => (h.2.2 r hr).symm⟩

section SameObservable
variable {s t : State} (h : SameObservable s t)
include h

theorem SameBut.reg_eq (r : RegName) : t.reg r = s.reg r := h.2.2 r (by simp)

theorem SameBut.a0_eq : t.a0 = s.a0 := h.reg_eq .ip

theorem SameBut.a1_eq : t.a1 = s.a1 := congrArg (· + 1#16) h.a0_eq

theorem SameBut.a2_eq : t.a2 = s.a2 := congrArg (· + 2#16) h.a0_eq

theorem SameBut.at_eq (a : Word) : t.at a = s.at a := h.2.1 a.toNat

theorem SameBut.wordAt_eq (a : Word) : t.wordAt a = s.wordAt a :=
  congrArg₂ wordOfBytes (h.2.1 a.toNat) (h.2.1 (a.toNat + 1))

theorem SameBut.opcode {op : Byte} (o : s.Opcode op) : t.Opcode op := by
  obtain ⟨hlt, ho⟩ := o
  exact ⟨by rwa [h.a0_eq, h.1], by rwa [h.a0_eq, h.at_eq]⟩

/-! The operations of a step lead such states to such states. -/

theorem SameBut.putReg_congr (r : RegName) (v : Word) : SameObservable (s.putReg r v) (t.putReg r v) :=
  ⟨by simp [h.1], fun a => by simp [h.2.1 a], fun q _ => by simp [h.reg_eq q]⟩

theorem SameBut.rbCursor_congr (o : Nat) : SameObservable (s.rbCursor o) (t.rbCursor o) :=
  (SameBut.rbCursor s o).symm.trans (h.trans (SameBut.rbCursor t o))

theorem SameBut.stuck_congr : SameObservable s.stuck t.stuck :=
  (SameBut.stuck s).symm.trans (h.trans (SameBut.stuck t))

theorem SameBut.advance_congr (n : Nat) : SameObservable (s.advance n) (t.advance n) :=
  ⟨by simp [h.1], fun a => by simp [h.2.1 a], fun r _ => by simp [h.reg_eq]⟩

/-! ### The step of such states (R64), by the opcode at `ip` -/

theorem sameOutcome_of_literalMove {op : Byte} {r : RegName}
    (hr : (op = opMovLitR1 ∧ r = .r1) ∨ (op = opMovLitR2 ∧ r = .r2)) (o : s.Opcode op) :
    SameOutcome (step s) (step t) := by
  rw [step_of_literalMove hr o, step_of_literalMove hr (h.opcode o), h.1, h.a1_eq, h.wordAt_eq]
  split_ifs
  · exact ((h.advance_congr 1).advance_congr 2).putReg_congr _ _
  · exact ⟨rfl, (h.advance_congr 1).stuck_congr⟩

theorem sameOutcome_of_addRegReg (o : s.Opcode opAddRegReg) : SameOutcome (step s) (step t) := by
  have two := (h.advance_congr 1).advance_congr 1
  have past : SameObservable s.pastSlots t.pastSlots := two.advance_congr 1
  rw [step_of_addRegReg o, step_of_addRegReg (h.opcode o), h.1, h.a1_eq, h.a2_eq, h.at_eq, h.at_eq]
  split_ifs with h1 h2 ha hb
  · exact ⟨rfl, (h.advance_congr 1).stuck_congr⟩
  · exact ⟨rfl, two.stuck_congr⟩
  · exact ⟨rfl, past.rbCursor_congr _⟩
  · exact ⟨rfl, past.rbCursor_congr _⟩
  · rw [past.slot_eq _ (by omega), past.slot_eq _ (by omega)]
    exact (past.rbCursor_congr _).putReg_congr _ _

theorem sameOutcome_of_illegal (hlt : s.a0.toNat < s.memSize) (hi : IllegalOpcode (s.at s.a0)) :
    SameOutcome (step s) (step t) := by
  have hat : t.at t.a0 = s.at s.a0 := by rw [h.a0_eq, h.at_eq]
  rw [step_of_illegal hlt hi, step_of_illegal (by rwa [h.a0_eq, h.1]) (by rwa [hat]), hat]
  exact ⟨rfl, h.advance_congr 1⟩

theorem sameOutcome_of_outOfBounds (hge : s.memSize ≤ s.a0.toNat) : SameOutcome (step s) (step t) := by
  rw [step_of_outOfBounds hge, step_of_outOfBounds (by rwa [h.a0_eq, h.1])]
  exact ⟨rfl, h.stuck_congr⟩

end SameObservable

/-- Settles O36: by the opcode at `ip` one of the arms, or row 1 of R99; in each both states take the same branch and
the operations keep the relation. -/
theorem stepDependsOnMemoryAndRegistersOnly : Obligations.StepDependsOnMemoryAndRegistersOnly := by
  intro s t h
  obtain hlt | hge := Nat.lt_or_ge s.a0.toNat s.memSize
  · obtain ⟨ho, _⟩ | ⟨ho, _⟩ | ⟨ho, _⟩ | ⟨n1, n2, n3, _⟩ := shapeOf_cases (s.at s.a0)
    · exact sameOutcome_of_literalMove h (.inl ⟨rfl, rfl⟩) ⟨hlt, ho⟩
    · exact sameOutcome_of_literalMove h (.inr ⟨rfl, rfl⟩) ⟨hlt, ho⟩
    · exact sameOutcome_of_addRegReg h ⟨hlt, ho⟩
    · exact sameOutcome_of_illegal h hlt ((illegalOpcode_iff _).2 ⟨n1, n2, n3⟩)
  · exact sameOutcome_of_outOfBounds h hge

/-! ### The pseudocode (R61, R62) -/

/-- The law of R71 as the pseudocode writes it. -/
theorem add16_eq_ofNat (va vb : Word) : add16 va vb = BitVec.ofNat 16 ((va.toNat + vb.toNat) % 2 ^ 16) :=
  BitVec.eq_of_toNat_eq (by simp [add16])

/-- A step whose opcode fetch fails is over (R61). -/
theorem step_of_fetch_error {s : State} {f : Fault} (h : fetch s = .error f) : step s = .fault f := by
  simp only [step, fetchInstr, h, bind, Except.bind]

/-- A legal opcode whose format is LIT16: the step is `fetch_word()` and the write to the register its meaning writes. -/
theorem step_of_fetch_lit16 {s t : State} {op : Byte} {instr : Word → Instr} {r : RegName}
    (h : fetch s = .ok (op, t)) (hs : shapeOf op = some (.lit16 instr))
    (hx : ∀ w u, exec (instr w) u = outcome (setReg r w u)) :
    step s = outcome (do let (w, u) ← fetchWord t; setReg r w u) := by
  cases hw : fetchWord t with
  | error f => simp only [step, fetchInstr, h, hs, hw, bind, Except.bind, outcome_error]
  | ok p => simp only [step, fetchInstr, h, hs, hw, hx, bind, Except.bind, pure, Except.pure]

/-- The format SLOT2: the step is two `fetch()` calls, then the meaning, its reads and its sum as R62 writes them. -/
theorem step_of_fetch_addRegReg {s t : State} (h : fetch s = .ok (opAddRegReg, t)) :
    step s = outcome (executePseudo opAddRegReg t) := by
  have arm : executePseudo opAddRegReg t = (do
      let (a, u) ← fetch t
      let (b, u) ← fetch u
      let (va, u) ← readSlot a u
      let (vb, u) ← readSlot b u
      setReg .acc (add16 va vb) u) := by
    simp only [add16_eq_ofNat]
    rfl
  rw [arm]
  cases ha : fetch t with
  | error f => simp only [step, fetchInstr, h, shapeOf_addRegReg, ha, bind, Except.bind, outcome_error]
  | ok p =>
    cases hb : fetch p.2 with
    | error f => simp only [step, fetchInstr, h, shapeOf_addRegReg, ha, hb, bind, Except.bind, outcome_error]
    | ok q => simp only [step, fetchInstr, h, shapeOf_addRegReg, ha, hb, bind, Except.bind, pure, Except.pure]; rfl

/-- An illegal opcode: the step fails as the last arm of `execute` does, with the state the opcode fetch left (R63). -/
theorem step_of_fetch_illegal {s t : State} {op : Byte} (h : fetch s = .ok (op, t)) (hi : IllegalOpcode op) :
    step s = outcome (executePseudo op t) := by
  rw [executePseudo_of_illegal hi]
  simp only [step, fetchInstr, h, (shapeOf_eq_none_iff op).2 hi, bind, Except.bind, raise, outcome_error]

/-- Once the opcode is fetched, the step is `execute(op)` (R61), arm by arm. -/
theorem step_of_fetch_ok {s t : State} {op : Byte} (h : fetch s = .ok (op, t)) :
    step s = outcome (executePseudo op t) := by
  obtain ⟨rfl, hs⟩ | ⟨rfl, hs⟩ | ⟨rfl, _⟩ | ⟨n1, n2, n3, _⟩ := shapeOf_cases op
  · exact step_of_fetch_lit16 h hs (fun _ _ => rfl)
  · exact step_of_fetch_lit16 h hs (fun _ _ => rfl)
  · exact step_of_fetch_addRegReg h
  · exact step_of_fetch_illegal h ((illegalOpcode_iff op).2 ⟨n1, n2, n3⟩)

/-- Settles O6: the opcode fetch fails and so do both, or both go on from what it left by `step_of_fetch_ok`. -/
theorem stepIsFetchThenExecute : Obligations.StepIsFetchThenExecute := by
  intro s
  cases h : fetch s with
  | error f => exact step_of_fetch_error h
  | ok p => exact step_of_fetch_ok h

end Sys2Proof.Machine
end

section
/-! The host's operations: construction makes a zero-filled block, and no other operation resizes program memory (R81). -/

namespace Sys2Proof.Machine

/-! ### Construction -/

/-- A capacity of R5 is accepted whatever came before, and the load may follow. -/
theorem perform_construct {n : Nat} (h : n ≤ 65536) (x : Option Session) :
    perform (.construct n) x = .ok (.ok, ⟨State.constructed n, true⟩) := by
  simp [perform, construct, Config.maxMemSize, h]

@[simp] theorem State.constructed_rbcells_read (n o : Nat) : (State.constructed n).rb.cells.read o = 0#8 := rfl

/-! ### MEM_SIZE -/

theorem load_memSize {p : List Byte} {s t : State} (h : load p s = .ok t) : t.memSize = s.memSize := by
  rw [load_eq] at h
  split_ifs at h
  cases h
  rfl

/-- MEM_SIZE is in the frame of a step, completed or failed. -/
theorem step_memSize {s : State} :
    (∀ t, step s = .next t → t.memSize = s.memSize) ∧ ∀ f, step s = .fault f → (resume f).memSize = s.memSize := by
  refine ⟨fun t h => ?_, fun f h => (sameBut_of_step_fault h).1⟩
  obtain ⟨hm, _⟩ | ⟨hm, _⟩ | ⟨hm, _⟩ := sameBut_of_step_next h <;> exact hm

/-- Only a construction gives the block another MEM_SIZE: a load writes bytes, a step has its frame, and the others
move a cursor or write a register, or change nothing. -/
theorem perform_memSize {op : HostOp} {x y : Session} {reply : Reply} (h : perform op (some x) = .ok (reply, y))
    (hc : ∀ n, op ≠ .construct n) : y.block.memSize = x.block.memSize := by
  obtain ⟨n, e, _⟩ | ⟨_, _, _, hl⟩ | ⟨_, hs⟩ | ⟨_, _, hg⟩ | ⟨_, _, _, hs⟩ | ⟨_, _, o, e, _⟩ := perform_cases h
  · exact absurd e (hc n)
  · obtain ⟨_, e, _⟩ | ⟨_, e, _⟩ := hl
    · rw [e]
    · exact load_memSize e
  · obtain ⟨e, _⟩ | ⟨f, e, ey, _⟩ := hs
    · exact step_memSize.1 _ e
    · exact ey ▸ step_memSize.2 f e
  · obtain ⟨_, _, e, _⟩ | ⟨_, e, _⟩ := hg <;> simp [e]
  · obtain ⟨_, _, e, _⟩ | ⟨_, e, _⟩ := hs <;> simp [e]
  · simp [e]

/-- Settles O39: construction answers `State.constructed n`, whose bytes and registers are zero, and `perform_memSize`. -/
theorem constructZeroFills : Obligations.ConstructZeroFills := by
  refine ⟨fun n x h => ⟨State.constructed n, perform_construct h x, ?_⟩, fun _ _ _ _ h hc => perform_memSize h hc⟩
  exact ⟨State.constructed_memSize n, State.constructed_byte n, State.constructed_rbcells_read n,
    State.constructed_reg n⟩

end Sys2Proof.Machine
end

section
/-! Failures: which operation of the host fails with which kind (R94, R95), and the seven failure points of a step (R99). -/

namespace Sys2Proof.Machine

/-! ### Failed operations of the host -/

/-- `get_register` fails on the names outside the set only, and leaves the block as it was (R84, R99). -/
theorem getRegister_eq_error_iff {name : String} {s : State} {f : Fault} :
    getRegister name s = .error f ↔ (∀ r, name ≠ regText r) ∧ f = .registerNotFound s := by
  constructor
  · intro h
    rcases name_cases name with ⟨r, rfl⟩ | hn
    · cases (getRegister_regText r s).symm.trans h
    · cases (getRegister_none hn s).symm.trans h
      exact ⟨hn, rfl⟩
  · rintro ⟨hn, rfl⟩
    exact getRegister_none hn s

/-- `set_register` fails on the names outside the set only, and leaves the block as it was (R85, R99). -/
theorem setRegister_eq_error_iff {name : String} {v : Word} {s : State} {f : Fault} :
    setRegister name v s = .error f ↔ (∀ r, name ≠ regText r) ∧ f = .registerNotFound s := by
  constructor
  · intro h
    rcases name_cases name with ⟨r, rfl⟩ | hn
    · cases (setRegister_regText r v s).symm.trans h
    · cases (setRegister_none hn v s).symm.trans h
      exact ⟨hn, rfl⟩
  · rintro ⟨hn, rfl⟩
    exact setRegister_none hn v s

/-- `load` fails on a program longer than memory only, and leaves the block as it was (R82, R99). -/
theorem load_eq_error_iff {p : List Byte} {s : State} {f : Fault} :
    load p s = .error f ↔ s.memSize < p.length ∧ f = .outOfBounds s := by
  rw [load_eq]
  split_ifs with h <;> simp [h, eq_comm]

/-- Before the first construction nothing is answered with a failure: a construction succeeds or is refused, and the
other operations are refused (R88). -/
theorem perform_none_ne_failed (op : HostOp) (k : FailureKind) (y : Session) :
    perform op none ≠ .ok (.failed k, y) := by
  cases op with
  | construct n => by_cases hn : n ≤ Config.maxMemSize <;> simp [perform, construct, hn]
  | load | step | getRegister | setRegister | debug => simp [perform]

/-- An operation answered with a failure works on a constructed block, and is a step that fails so, a load that is too
long, or one of the two operations by name on a name outside the set (R93 to R96). -/
theorem perform_failed_cases {op : HostOp} {x : Option Session} {y : Session} {k : FailureKind}
    (h : perform op x = .ok (.failed k, y)) :
    ∃ z, x = some z ∧
      ((op = .step ∧ ∃ f, step z.block = .fault f ∧ f.kind = k) ∨
       (∃ p, op = .load p ∧ z.block.memSize < p.length ∧ k = .outOfBounds) ∨
       (∃ name, (∀ r, name ≠ regText r) ∧ (op = .getRegister name ∨ ∃ v, op = .setRegister name v) ∧
          k = .registerNotFound)) := by
  cases x with
  | none => exact absurd h (perform_none_ne_failed op k y)
  | some z =>
    refine ⟨z, rfl, ?_⟩
    obtain ⟨_, _, _, _, e⟩ | ⟨p, ho, _, ⟨hl, _, e⟩ | ⟨_, _, e⟩⟩ | ⟨ho, ⟨_, e⟩ | ⟨f, hf, _, e⟩⟩ |
      ⟨name, ho, ⟨_, _, _, e⟩ | ⟨hn, _, e⟩⟩ | ⟨name, v, ho, ⟨_, _, _, e⟩ | ⟨hn, _, e⟩⟩ | ⟨_, e, _⟩ := perform_cases h
    all_goals cases e
    · exact .inr (.inl ⟨p, ho, hl, rfl⟩)
    · exact .inl ⟨ho, f, hf, rfl⟩
    · exact .inr (.inr ⟨name, hn, .inl ho, rfl⟩)
    · exact .inr (.inr ⟨name, hn, .inr ⟨v, ho⟩, rfl⟩)

/-! ### RegisterNotFound (R94) -/

/-- A step uses no name: none of its seven failures is RegisterNotFound. -/
theorem step_ne_registerNotFound (s t : State) : step s ≠ .fault (.registerNotFound t) := by
  intro h
  obtain ⟨_, e⟩ | ⟨_, _, e⟩ | ⟨_, _, e⟩ | ⟨_, _, e⟩ | ⟨_, _, _, e⟩ | ⟨_, _, _, e⟩ | ⟨_, _, _, _, e⟩ | ⟨_, _, e⟩ |
    ⟨_, _, e⟩ | ⟨_, _, _, _, e⟩ := step_cases s
  all_goals cases e.symm.trans h

/-- A failed step is what raising its kind with the state it left answers (R99). -/
theorem step_eq_fault_raise {s : State} {f : Fault} {k : FailureKind} (h : step s = .fault f) (hk : f.kind = k) :
    step s = .fault (raise k (resume f)) := by
  rw [h]
  cases f <;> cases hk <;> rfl

/-- Settles O21: of the three ways an operation fails, a step's and a load's have another kind. -/
theorem registerNotFoundOnlyFromNames : Obligations.RegisterNotFoundOnlyFromNames := by
  refine ⟨fun name v s hn => ⟨getRegister_none hn s, setRegister_none hn v s⟩, fun op x y h => ?_,
    step_ne_registerNotFound⟩
  obtain ⟨z, _, ⟨_, f, hf, hk⟩ | ⟨_, _, _, hk⟩ | ⟨name, hn, ho, _⟩⟩ := perform_failed_cases h
  · exact absurd (step_eq_fault_raise hf hk) (step_ne_registerNotFound _ _)
  · cases hk
  · exact ⟨name, hn, ho⟩

/-! ### The failure points of a step (R99) -/

/-- A step that fails with OutOfBounds is a row of R99: the frame is that of every failed step. -/
theorem failsAt_outOfBounds {s u : State} {w : Word} (h : step s = .fault (.outOfBounds u)) (hip : u.reg .ip = w) :
    FailsAt .outOfBounds w s :=
  ⟨_, h, rfl, hip, sameBut_of_step_fault h⟩

theorem FailsAt.step_eq {s : State} {w : Word} (h : FailsAt .outOfBounds w s) :
    ∃ t, step s = .fault (.outOfBounds t) := by
  obtain ⟨f, hf, hk, _⟩ := h
  exact ⟨resume f, step_eq_fault_raise hf hk⟩

section Rows
variable {s : State}

/-- A literal move, without its destination. -/
theorem exists_literalMove (o : s.Opcode opMovLitR1 ∨ s.Opcode opMovLitR2) :
    ∃ (op : Byte) (r : RegName), ((op = opMovLitR1 ∧ r = .r1) ∨ (op = opMovLitR2 ∧ r = .r2)) ∧ s.Opcode op := by
  obtain o | o := o
  · exact ⟨_, .r1, .inl ⟨rfl, rfl⟩, o⟩
  · exact ⟨_, .r2, .inr ⟨rfl, rfl⟩, o⟩

/-- Row 1: the opcode fetch. -/
theorem failsAt_opcodeFetch (h : s.memSize ≤ s.a0.toNat) : FailsAt .outOfBounds s.a0 s :=
  failsAt_outOfBounds (step_of_outOfBounds h) (s.stuck_reg .ip)

/-- Row 3: the literal fetch. -/
theorem failsAt_literalFetch (o : s.Opcode opMovLitR1 ∨ s.Opcode opMovLitR2) (h : s.memSize < s.a1.toNat + 2) :
    FailsAt .outOfBounds s.a1 s := by
  obtain ⟨op, r, hr, o⟩ := exists_literalMove o
  have e := step_of_literalMove hr o
  rw [if_neg (by omega)] at e
  exact failsAt_outOfBounds e (by rw [State.stuck_reg, State.advance_one_reg_ip])

theorem step_literal_completes (o : s.Opcode opMovLitR1 ∨ s.Opcode opMovLitR2) (h : s.a1.toNat + 2 ≤ s.memSize) :
    ∃ t, step s = .next t := by
  obtain ⟨op, r, hr, o⟩ := exists_literalMove o
  exact ⟨_, (step_of_literalMove hr o).trans (if_pos h)⟩

section Addition
variable (o : s.Opcode opAddRegReg)
include o

/-- Row 4: the fetch of `A`. -/
theorem failsAt_fetchA (h : s.memSize ≤ s.a1.toNat) : FailsAt .outOfBounds s.a1 s := by
  have e := step_of_addRegReg o
  rw [if_pos h] at e
  exact failsAt_outOfBounds e (by rw [State.stuck_reg, State.advance_one_reg_ip])

/-- Row 5: the fetch of `B`. -/
theorem failsAt_fetchB (h1 : s.a1.toNat < s.memSize) (h2 : s.memSize ≤ s.a2.toNat) : FailsAt .outOfBounds s.a2 s := by
  have e := step_of_addRegReg o
  rw [if_neg (by omega), if_pos h2] at e
  exact failsAt_outOfBounds e (by rw [State.stuck_reg, State.advance_one_one_reg_ip])

/-- Once both slot indices are fetched, only the slot reads decide. -/
theorem step_of_slotsFit (h : s.SlotsFit) :
    step s =
      if 10 ≤ (s.at s.a1).toNat then
        .fault (.outOfBounds (s.pastSlots.rbCursor (slotOffset (s.at s.a1).toNat)))
      else if 10 ≤ (s.at s.a2).toNat then
        .fault (.outOfBounds (s.pastSlots.rbCursor (slotOffset (s.at s.a2).toNat)))
      else .next ((s.pastSlots.rbCursor (slotOffset (s.at s.a2).toNat + 2)).putReg .acc
        (s.pastSlots.slot (s.at s.a1).toNat + s.pastSlots.slot (s.at s.a2).toNat)) := by
  obtain ⟨h1, h2⟩ := h
  rw [step_of_addRegReg o, if_neg (by omega), if_neg (by omega)]

/-- Row 6: the read of slot `A`. -/
theorem failsAt_slotA (h : s.SlotsFit) (ha : 10 ≤ (s.at s.a1).toNat) : FailsAt .outOfBounds s.a3 s := by
  have e := step_of_slotsFit o h
  rw [if_pos ha] at e
  exact failsAt_outOfBounds e (by rw [State.rbCursor_reg, State.pastSlots_reg, if_pos rfl])

/-- Row 7: the read of slot `B`. -/
theorem failsAt_slotB (h : s.SlotsFit) (ha : (s.at s.a1).toNat ≤ 9) (hb : 10 ≤ (s.at s.a2).toNat) :
    FailsAt .outOfBounds s.a3 s := by
  have e := step_of_slotsFit o h
  rw [if_neg (by omega), if_pos hb] at e
  exact failsAt_outOfBounds e (by rw [State.rbCursor_reg, State.pastSlots_reg, if_pos rfl])

theorem step_addition_completes (h : s.SlotsFit) (ha : (s.at s.a1).toNat ≤ 9) (hb : (s.at s.a2).toNat ≤ 9) :
    ∃ t, step s = .next t := by
  rw [step_of_slotsFit o h, if_neg (by omega), if_neg (by omega)]
  exact ⟨_, rfl⟩

end Addition
end Rows

/-- Settles O30: the rows one by one, the two kinds of completion, and the causes of a failed host operation, each of
which leaves the block as it was. -/
theorem failureTable : Obligations.FailureTable := by
  refine ⟨fun s => ⟨failsAt_opcodeFetch, failsAt_of_illegal, failsAt_literalFetch, failsAt_fetchA, failsAt_fetchB,
    failsAt_slotA, failsAt_slotB, ?_⟩, ?_⟩
  · rintro (⟨o, h⟩ | ⟨o, h, ha, hb⟩)
    · exact step_literal_completes o h
    · exact step_addition_completes o h ha hb
  · rintro name v p s f (h | h | h)
    · obtain ⟨_, rfl⟩ := getRegister_eq_error_iff.1 h
      rfl
    · obtain ⟨_, rfl⟩ := setRegister_eq_error_iff.1 h
      rfl
    · obtain ⟨_, rfl⟩ := load_eq_error_iff.1 h
      rfl

/-! ### OutOfBounds (R95) -/

/-- The causes 1 to 6: of all a step can do, these rows of R99 answer OutOfBounds, and each of them does. -/
theorem step_outOfBounds_iff (s : State) : (∃ t, step s = .fault (.outOfBounds t)) ↔
    s.memSize ≤ s.a0.toNat ∨
    (s.Opcode opMovLitR1 ∨ s.Opcode opMovLitR2) ∧ s.memSize < s.a1.toNat + 2 ∨
    s.Opcode opAddRegReg ∧ s.memSize ≤ s.a1.toNat ∨
    s.Opcode opAddRegReg ∧ s.a1.toNat < s.memSize ∧ s.memSize ≤ s.a2.toNat ∨
    s.Opcode opAddRegReg ∧ s.SlotsFit ∧ 10 ≤ (s.at s.a1).toNat ∨
    s.Opcode opAddRegReg ∧ s.SlotsFit ∧ (s.at s.a1).toNat ≤ 9 ∧ 10 ≤ (s.at s.a2).toNat := by
  constructor
  · rintro ⟨t, h⟩
    obtain ⟨c, e⟩ | ⟨_, _, e⟩ | ⟨o, c, e⟩ | ⟨o, c, e⟩ | ⟨o, c, d, e⟩ | ⟨o, c, d, e⟩ | ⟨o, c, d, g, e⟩ | ⟨_, _, e⟩ |
      ⟨_, _, e⟩ | ⟨_, _, _, _, e⟩ := step_cases s
    all_goals cases e.symm.trans h
    · exact .inl c
    · exact .inr (.inl ⟨o, c⟩)
    · exact .inr (.inr (.inl ⟨o, c⟩))
    · exact .inr (.inr (.inr (.inl ⟨o, c, d⟩)))
    · exact .inr (.inr (.inr (.inr (.inl ⟨o, c, d⟩))))
    · exact .inr (.inr (.inr (.inr (.inr ⟨o, c, Nat.le_of_lt_succ d, g⟩))))
  · rintro (c | ⟨o, c⟩ | ⟨o, c⟩ | ⟨o, c, d⟩ | ⟨o, c, d⟩ | ⟨o, c, d, g⟩)
    · exact (failsAt_opcodeFetch c).step_eq
    · exact (failsAt_literalFetch o c).step_eq
    · exact (failsAt_fetchA o c).step_eq
    · exact (failsAt_fetchB o c d).step_eq
    · exact (failsAt_slotA o c d).step_eq
    · exact (failsAt_slotB o c d g).step_eq

/-- Cause 7. -/
theorem load_outOfBounds_iff (p : List Byte) (s : State) :
    (∃ t, load p s = .error (.outOfBounds t)) ↔ s.memSize < p.length := by
  simp [load_eq_error_iff]

/-- Settles O31: the causes in a step and in a load, and of the three ways an operation fails, the one by name has another
kind. -/
theorem outOfBoundsCauses : Obligations.OutOfBoundsCauses := by
  refine ⟨step_outOfBounds_iff, load_outOfBounds_iff, fun op x y h => ?_⟩
  obtain ⟨z, hx, ⟨ho, f, hf, hk⟩ | ⟨p, ho, hl, _⟩ | ⟨_, _, _, hk⟩⟩ := perform_failed_cases h
  · exact ⟨z, hx, .inl ⟨ho, resume f, step_eq_fault_raise hf hk⟩⟩
  · exact ⟨z, hx, .inr ⟨p, ho, (load_outOfBounds_iff p z.block).2 hl⟩⟩
  · cases hk

end Sys2Proof.Machine
end

section
/-! The decoder inverts the encoder (R47 to R51, R54), and the opcode table's view of an instruction (R56). -/

namespace Sys2Proof

/-! ### The two formats -/

/-- LIT16 (R47): two operand bytes make one literal. -/
theorem decode_lit16 {op : Byte} {instr : Word → Instr} (h : shapeOf op = some (.lit16 instr)) (hi lo : Byte)
    (rest : List Byte) : decode (op :: hi :: lo :: rest) = .instr (instr (wordOfBytes hi lo)) rest := by
  simp only [decode, h]

/-- SLOT2 (R48): two operand bytes are two slot indices. -/
theorem decode_slot2 {op : Byte} {instr : Byte → Byte → Instr} (h : shapeOf op = some (.slot2 instr)) (a b : Byte)
    (rest : List Byte) : decode (op :: a :: b :: rest) = .instr (instr a b) rest := by
  simp only [decode, h]

/-- What the decoder answers with an instruction has a first byte and two operand bytes (R46, R49). -/
theorem exists_three_of_decode {bs rest : List Byte} {i : Instr} (h : decode bs = .instr i rest) :
    ∃ op x y tail, bs = op :: x :: y :: tail := by
  match bs with
  | [] => cases h
  | [op] | [op, _] =>
    unfold decode at h
    cases hs : shapeOf op with
    | none => simp [hs] at h
    | some shape => cases shape <;> simp [hs] at h
  | op :: x :: y :: tail => exact ⟨op, x, y, tail, rfl⟩

/-! ### The round trip -/

theorem decode_encode_append (i : Instr) (rest : List Byte) : decode (encode i ++ rest) = .instr i rest := by
  cases i with
  | movLitR1 lit => exact (decode_lit16 shapeOf_movLitR1 _ _ rest).trans (by rw [wordOfBytes_hi_lo])
  | movLitR2 lit => exact (decode_lit16 shapeOf_movLitR2 _ _ rest).trans (by rw [wordOfBytes_hi_lo])
  | addRegReg a b => exact decode_slot2 shapeOf_addRegReg a b rest

/-- The bytes the decoder read are the encoding of what it answers: the opcode is its format's, and splitting the
assembled literal gives the operand bytes back. -/
theorem eq_encode_append_of_decode {bs rest : List Byte} {i : Instr} (h : decode bs = .instr i rest) :
    bs = encode i ++ rest := by
  obtain ⟨op, x, y, tail, rfl⟩ := exists_three_of_decode h
  obtain ⟨rfl, hs⟩ | ⟨rfl, hs⟩ | ⟨rfl, hs⟩ | ⟨_, _, _, hs⟩ := shapeOf_cases op
  · cases (decode_lit16 hs x y tail).symm.trans h
    simp [encode]
  · cases (decode_lit16 hs x y tail).symm.trans h
    simp [encode]
  · cases (decode_slot2 hs x y tail).symm.trans h
    simp [encode]
  · simp [decode, hs] at h

/-- Settles O2: `eq_encode_append_of_decode` one way, `decode_encode_append` the other. -/
theorem decodeExactlyInvertsEncode : Obligations.DecodeExactlyInvertsEncode := by
  intro bs rest i
  constructor
  · exact eq_encode_append_of_decode
  · rintro rfl
    exact decode_encode_append i rest

/-! ### The table's view (R56) -/

/-- Three bytes, the first the most significant, are a 24-bit number. -/
theorem three_bytes_lt (a b c : Byte) : (a.toNat * 256 + b.toNat) * 256 + c.toNat < 2 ^ 24 := by
  have ha := a.isLt
  have hb := b.isLt
  have hc := c.isLt
  omega

theorem tableWord_lt (i : Instr) : tableWord i < 2 ^ 24 := by
  cases i <;> simpa [tableWord, encode] using three_bytes_lt _ _ _

/-- Settles O3: the view lists the bytes of the encoding, which decode to the instruction. -/
theorem tableViewRoundTrip : Obligations.TableViewRoundTrip := by
  refine fun i => ⟨tableWord_lt i, ?_⟩
  have e : decode (encode i) = .instr i [] := by simpa using decode_encode_append i []
  simp only [decodeTableWord, tableBytes_tableWord, e]

/-- Settles O1: the written-out words are closed terms and the decoder computes. -/
theorem specWordsDecode : Obligations.SpecWordsDecode := by
  unfold Obligations.SpecWordsDecode
  decide

end Sys2Proof
end

section
/-! The invariant `State.wf`: the canonical form determines a buffer's content (log 10), construction establishes the
invariant, and every step and every operation of the host keeps it; and the bounds of the cursors (decision D8). -/

namespace Sys2Proof.Machine

/-! ### What a transition leaves -/

section StepLeaves
variable {P : State → Prop} {s t : State}

theorem step_leaves_of_next (e : step s = .next t) (h : P t) :
    (∀ u, step s = .next u → P u) ∧ ∀ f, step s = .fault f → P (resume f) := by
  refine ⟨fun u hu => ?_, fun f hf => ?_⟩
  · cases e.symm.trans hu
    exact h
  · cases e.symm.trans hf

theorem step_leaves_of_fault {g : Fault} (e : step s = .fault g) (h : P (resume g)) :
    (∀ u, step s = .next u → P u) ∧ ∀ f, step s = .fault f → P (resume f) := by
  refine ⟨fun u hu => ?_, fun f hf => ?_⟩
  · cases e.symm.trans hu
  · cases e.symm.trans hf
    exact h

end StepLeaves

/-- The induction over the operations of the host: a construction establishes `P`, a load and a step keep it, and the
others move the read cursor of the register bank, write a register, or change nothing. -/
theorem perform_keeps {P : State → Prop} {op : HostOp} {x y : Session} {reply : Reply}
    (hp : perform op (some x) = .ok (reply, y)) (h : P x.block)
    (constructs : ∀ n ≤ 65536, P (State.constructed n))
    (loads : ∀ p t, load p x.block = .ok t → P t)
    (steps : (∀ t, step x.block = .next t → P t) ∧ ∀ f, step x.block = .fault f → P (resume f))
    (reads : ∀ o, o = x.block.rb.rc ∨ o ≤ 20 → P (x.block.rbCursor o))
    (writes : ∀ r v, P (x.block.putReg r v)) : P y.block := by
  obtain ⟨next, fault⟩ := steps
  obtain ⟨n, _, hn, rfl, _⟩ | ⟨p, _, _, ⟨_, e, _⟩ | ⟨_, e, _⟩⟩ | ⟨_, ⟨e, _⟩ | ⟨f, hf, e, _⟩⟩ |
    ⟨_, _, ⟨r, _, e, _⟩ | ⟨_, e, _⟩⟩ | ⟨_, v, _, ⟨r, _, e, _⟩ | ⟨_, e, _⟩⟩ | ⟨_, _, o, e, ho⟩ := perform_cases hp
  · exact constructs n hn
  · exact e ▸ h
  · exact loads p _ e
  · exact next _ e
  · exact e ▸ fault f hf
  · have := regSlot_lt r
    exact e ▸ reads _ (.inr (by unfold slotOffset; omega))
  · exact e ▸ h
  · exact e ▸ writes r v
  · exact e ▸ h
  · exact e ▸ reads o ho

/-! ### The canonical form is kept -/

/-- Settles O41: whatever a step does is fetches, cursor moves and at most one register write, and each keeps the form. -/
theorem stepKeepsWellFormed : Obligations.StepKeepsWellFormed := by
  intro s h
  have one := State.wf_advance h 1
  have two := State.wf_advance one 1
  have lit := State.wf_advance one 2
  have slots := State.wf_advance two 1
  obtain ⟨_, e⟩ | ⟨_, _, e⟩ | ⟨_, _, e⟩ | ⟨_, _, e⟩ | ⟨_, _, _, e⟩ | ⟨_, _, _, e⟩ | ⟨_, _, _, _, e⟩ | ⟨_, _, e⟩ |
    ⟨_, _, e⟩ | ⟨_, _, _, _, e⟩ := step_cases s
  · exact step_leaves_of_fault e (State.wf_stuck h)
  · exact step_leaves_of_fault e one
  · exact step_leaves_of_fault e (State.wf_stuck one)
  · exact step_leaves_of_fault e (State.wf_stuck one)
  · exact step_leaves_of_fault e (State.wf_stuck two)
  · exact step_leaves_of_fault e (State.wf_rbCursor slots _)
  · exact step_leaves_of_fault e (State.wf_rbCursor slots _)
  · exact step_leaves_of_next e (State.wf_putReg lit _ _)
  · exact step_leaves_of_next e (State.wf_putReg lit _ _)
  · exact step_leaves_of_next e (State.wf_putReg (State.wf_rbCursor slots _) _ _)

theorem State.wf_constructed {n : Nat} (h : n ≤ 65536) : (State.constructed n).wf = true :=
  (State.wf_iff _).2 ⟨h, rfl, rfl⟩

/-- Settles O40: reset is a construction. -/
theorem resetWellFormed : Obligations.ResetWellFormed :=
  ⟨State.wf_constructed (Nat.le_refl 65536), fun _ => State.wf_constructed⟩

/-- Settles O42: `perform_keeps` with the form as what is kept. -/
theorem hostOperationsKeepWellFormed : Obligations.HostOperationsKeepWellFormed := fun _ _ _ _ h hp =>
  perform_keeps hp h (fun _ => State.wf_constructed) (fun _ _ => load_wf h) (stepKeepsWellFormed _ h)
    (fun o _ => State.wf_rbCursor h o) (State.wf_putReg h)

/-! ### The canonical form determines the content -/

/-- With rising addresses, no cell hides another. -/
theorem Memory.read_of_mem {m : Memory} (hp : m.Pairwise (fun c d => c.1 < d.1)) {c : Host.Cell} (hc : c ∈ m) :
    m.read c.1 = c.2 := by
  induction m with
  | nil => cases hc
  | cons d m ih =>
    obtain ⟨hd, hp⟩ := List.pairwise_cons.1 hp
    rw [Memory.read_cons]
    obtain rfl | hc := List.mem_cons.1 hc
    · exact if_pos rfl
    · rw [if_neg (Nat.ne_of_lt (hd c hc)), ih hp hc]

/-- A byte that is not zero is listed. -/
theorem Memory.mem_of_read_ne {m : Memory} {a : Nat} (h : m.read a ≠ 0#8) : (a, m.read a) ∈ m := by
  induction m with
  | nil => exact absurd rfl h
  | cons d m ih =>
    rw [Memory.read_cons] at h ⊢
    split_ifs at h ⊢ with hd
    · subst hd
      exact List.mem_cons_self
    · exact List.mem_cons_of_mem _ (ih h)

/-- A canonical memory lists the bytes that are not zero, each at its address. -/
theorem Memory.mem_iff_of_wf {len : Nat} {m : Memory} (h : m.wf len = true) (c : Host.Cell) :
    c ∈ m ↔ m.read c.1 = c.2 ∧ c.2 ≠ 0#8 := by
  obtain ⟨hp, hm⟩ := (Memory.wf_iff len m).1 h
  constructor
  · exact fun hc => ⟨Memory.read_of_mem hp hc, (hm c hc).2⟩
  · rintro ⟨e, hne⟩
    have := Memory.mem_of_read_ne (m := m) (a := c.1) (e ▸ hne)
    rwa [e] at this

/-- Settles O16: canonical memories that read alike have the same cells, and cells in rising order are one list. -/
theorem canonicalMemoryIsUnique : Obligations.CanonicalMemoryIsUnique := by
  intro len m m' h h' e
  have mem : ∀ c, c ∈ m ↔ c ∈ m' := fun c => by
    rw [Memory.mem_iff_of_wf h, Memory.mem_iff_of_wf h', e]
  have asymm : Std.Asymm (fun c d : Host.Cell => c.1 < d.1) := ⟨fun _ _ => Nat.lt_asymm⟩
  exact ((Memory.wf_iff len m).1 h).1.eq_of_mem_iff ((Memory.wf_iff len m').1 h').1 mem

/-! ### The bounds of the cursors (decision D8) -/

theorem CursorBounds.constructed (n : Nat) : CursorBounds (State.constructed n) :=
  ⟨Nat.zero_le _, Nat.zero_le _, Nat.zero_le _, Nat.zero_le _⟩

section CursorBounds
variable {s : State} (h : CursorBounds s)
include h

theorem CursorBounds.rbCursor {o : Nat} (ho : o ≤ 510) : CursorBounds (s.rbCursor o) := by
  obtain ⟨hmr, hmw, _, hrw⟩ := h
  exact ⟨hmr, hmw, ho, hrw⟩

theorem CursorBounds.putReg (r : RegName) (v : Word) : CursorBounds (s.putReg r v) := by
  obtain ⟨hmr, hmw, hrr, _⟩ := h
  have := regSlot_lt r
  exact ⟨by simpa using hmr, by simpa using hmw, by simpa using hrr, by simp only [State.putReg_wc, slotOffset]; omega⟩

theorem CursorBounds.stuck : CursorBounds s.stuck := by
  obtain ⟨_, hmw, _, hrw⟩ := h
  exact ⟨Nat.le_of_lt (s.reg .ip).isLt, hmw, by simp, hrw⟩

/-- A fetch of `n` bytes that are in a memory of R5. -/
theorem CursorBounds.advance {n : Nat} (hn : (s.reg .ip).toNat + n ≤ 65536) : CursorBounds (s.advance n) := by
  obtain ⟨_, hmw, _, _⟩ := h
  exact ⟨by simpa using hn, by simpa using hmw, by simp, by simp⟩

/-- One byte fetched is always below the end of the address space. -/
theorem CursorBounds.advance_one : CursorBounds (s.advance 1) := h.advance (s.reg .ip).isLt

/-- The literal of a move is in memory when it is fetched. -/
theorem CursorBounds.pastLit (hm : s.memSize ≤ 65536) (hl : s.LiteralFits) : CursorBounds s.pastLit :=
  h.advance_one.advance (by rw [State.advance_one_reg_ip]; exact Nat.le_trans hl hm)

theorem CursorBounds.pastSlots : CursorBounds s.pastSlots := h.advance_one.advance_one.advance_one

/-- A slot read sets the cursor to at most twice the largest slot index. -/
theorem CursorBounds.rbCursor_slot (i : Byte) : CursorBounds (s.rbCursor (slotOffset i.toNat)) :=
  h.rbCursor (by have := i.isLt; unfold slotOffset; omega)

theorem CursorBounds.step (hm : s.memSize ≤ 65536) :
    (∀ t, step s = .next t → CursorBounds t) ∧ ∀ f, step s = .fault f → CursorBounds (resume f) := by
  have one := h.advance_one
  have slots := h.pastSlots
  obtain ⟨_, e⟩ | ⟨_, _, e⟩ | ⟨_, _, e⟩ | ⟨_, _, e⟩ | ⟨_, _, _, e⟩ | ⟨_, _, _, e⟩ | ⟨_, _, _, _, e⟩ | ⟨_, hl, e⟩ |
    ⟨_, hl, e⟩ | ⟨_, _, _, hb, e⟩ := step_cases s
  · exact step_leaves_of_fault e h.stuck
  · exact step_leaves_of_fault e one
  · exact step_leaves_of_fault e one.stuck
  · exact step_leaves_of_fault e one.stuck
  · exact step_leaves_of_fault e one.advance_one.stuck
  · exact step_leaves_of_fault e (slots.rbCursor_slot _)
  · exact step_leaves_of_fault e (slots.rbCursor_slot _)
  · exact step_leaves_of_next e ((h.pastLit hm hl).putReg _ _)
  · exact step_leaves_of_next e ((h.pastLit hm hl).putReg _ _)
  · exact step_leaves_of_next e ((slots.rbCursor (by unfold slotOffset; omega)).putReg _ _)

theorem CursorBounds.load {p : List Byte} {t : State} (hm : s.memSize ≤ 65536) (e : load p s = .ok t) :
    CursorBounds t := by
  obtain ⟨hmr, _, hrr, hrw⟩ := h
  rw [load_eq] at e
  split_ifs at e with hp
  cases e
  exact ⟨hmr, by simp only [State.setM_m]; omega, hrr, hrw⟩

end CursorBounds

/-- Settles O43: `perform_keeps` with the bounds as what is kept. -/
theorem cursorsStayInBounds : Obligations.CursorsStayInBounds := by
  intro op x y reply hm h hp
  have ⟨_, _, hrc, _⟩ := h
  exact perform_keeps hp h (fun n _ => CursorBounds.constructed n) (fun _ _ => h.load hm) (h.step hm)
    (fun o ho => h.rbCursor (by omega)) h.putReg

end Sys2Proof.Machine
end

section
/-! The access primitives (R29, R32 to R34), the registers by name and by slot (R11, R13, R87), the operations by name
(R84), and the effect of each instruction on the state after its fetches (R67, R68, R70, R71). -/

namespace Sys2Proof.Machine

/-! ### Word reads of program memory (R29, R32) -/

/-- Settles O11: the two branches of the bounds check of `MemRead(a, 2)`. -/
theorem memReadWordContract : Obligations.MemReadWordContract := by
  intro a s
  rw [memReadWord_eq]
  constructor
  · intro h
    rw [if_neg (by omega)]
    exact ⟨_, _, rfl, wordOfBytes_toNat _ _, rfl, rfl, rfl, rfl, rfl⟩
  · intro h
    rw [if_pos h]
    exact ⟨_, rfl, rfl, rfl, rfl, rfl, rfl⟩

/-- Settles O12: where a word read succeeds, both bytes are in memory, and they are the two halves of the word. -/
theorem byteReadsSplitAWordRead : Obligations.ByteReadsSplitAWordRead := by
  intro a w s t h
  rw [memReadWord_eq] at h
  split_ifs at h with hs
  cases h
  constructor
  · rw [memReadByte_eq, if_neg (by simp only [State.setM_memSize]; omega), hiByte_wordOfBytes]
    exact ⟨_, rfl⟩
  · rw [memReadByte_eq, if_neg (by simp only [State.setM_memSize]; omega), loByte_wordOfBytes]
    exact ⟨_, rfl⟩

/-! ### Word accesses of the register bank (R33, R34) -/

/-- Every byte of the register bank after a word is written at `o`. -/
theorem State.putWord_rb_read (s : State) (o : Nat) (v : Word) (x : Nat) :
    (s.putWord o v).rb.cells.read x =
      if o + 1 = x then loByte v else if o = x then hiByte v else s.rb.cells.read x := by
  simp [State.putWord]

/-- Settles O14: the two branches of the bounds check of `RegBankRead(o)`; the offset of a register's slot is in the bank,
that of any other slot is not. -/
theorem regBankReadContract : Obligations.RegBankReadContract := by
  refine ⟨fun o s => ?_, fun r s => ⟨_, getReg_eq r s⟩, fun i s h => ?_⟩
  · rw [regBankRead_eq]
    constructor
    · intro h
      rw [if_neg (by omega)]
      exact ⟨_, rfl, rfl, rfl, rfl, rfl, rfl⟩
    · intro h
      rw [if_pos h]
      exact ⟨_, rfl, rfl, rfl, rfl, rfl, rfl⟩
  · rw [regBankRead_eq, if_pos (by omega)]
    exact ⟨_, rfl⟩

/-- Settles O15: the two branches of the bounds check of `RegBankWrite(o, v)`, and read after write. -/
theorem regBankWriteContract : Obligations.RegBankWriteContract := by
  intro o v s
  rw [regBankWrite_eq]
  constructor
  · intro h
    rw [if_neg (by omega)]
    refine ⟨_, rfl, ?_, ?_, fun x ho ho1 => ?_, rfl, rfl, rfl, rfl⟩
    · rw [State.putWord_rb_read, if_neg (by omega), if_pos rfl]
    · rw [State.putWord_rb_read, if_pos rfl]
    · rw [State.putWord_rb_read, if_neg (Ne.symm ho1), if_neg (Ne.symm ho)]
  · intro h
    rw [if_pos h]
    exact ⟨_, rfl, rfl, rfl, rfl, rfl, rfl⟩

/-! ### Registers (R11, R13, R84, R87) -/

/-- The slot index of a register fits a slot-index byte. -/
theorem toNat_ofNat_regSlot (r : RegName) : (BitVec.ofNat 8 (regSlot r)).toNat = regSlot r := by
  have := regSlot_lt r
  rw [BitVec.toNat_ofNat]
  omega

/-- The slot read of a register's index answers the register. -/
theorem readSlot_regSlot (r : RegName) (s : State) :
    readSlot (BitVec.ofNat 8 (regSlot r)) s = .ok (s.reg r, s.rbCursor (slotOffset (regSlot r) + 2)) := by
  rw [readSlot_eq, toNat_ofNat_regSlot, if_pos (regSlot_lt r)]
  rfl

/-- Settles O17: the write succeeds, and both access paths read the register that now holds the value. -/
theorem registerReadAfterWrite : Obligations.RegisterReadAfterWrite := by
  intro r v s
  have hv : (s.putReg r v).reg r = v := by simp
  exact ⟨_, setReg_eq r v s, ⟨_, (getReg_eq r _).trans (by rw [hv])⟩, ⟨_, (readSlot_regSlot r _).trans (by rw [hv])⟩,
    SameBut.putReg s r v⟩

theorem regNamed_eq_some_iff (name : String) (r : RegName) : regNamed name = some r ↔ name = regText r := by
  constructor
  · exact regNamed_some
  · rintro rfl
    exact regNamed_regText r

theorem regNamed_eq_none_iff (name : String) : regNamed name = none ↔ ∀ r, name ≠ regText r := by
  refine ⟨fun h r e => ?_, regNamed_none⟩
  cases h.symm.trans ((regNamed_eq_some_iff name r).2 e)

/-- The ten strings are the texts of the ten names. -/
theorem mem_map_regText_iff (name : String) : name ∈ RegName.all.map regText ↔ ∃ r, name = regText r := by
  simp only [List.mem_map, RegName.mem_all, true_and, eq_comm]

/-- Settles O18: a name is found exactly when it is the text of a register, and those texts are the ten strings. -/
theorem registerNamesAreTheTen : Obligations.RegisterNamesAreTheTen := by
  refine ⟨regNamed_eq_some_iff, fun name => ?_⟩
  have ten : ["ip", "acc", "r1", "r2", "r3", "r4", "r5", "r6", "r7", "r8"] = RegName.all.map regText := rfl
  rw [regNamed_eq_none_iff, ten, mem_map_regText_iff, not_exists]

/-- Settles O19: by whether the string is a register's text. -/
theorem getRegisterReadsByName : Obligations.GetRegisterReadsByName :=
  ⟨fun r s => ⟨_, getRegister_regText r s, SameBut.rbCursor s _⟩, fun _ s h => getRegister_none h s⟩

/-! ### The meanings (R67, R68, R70, R71) -/

/-- What a literal move leaves: its destination is the literal and only the write cursor moves beside. -/
theorem putReg_contract (s : State) (r : RegName) (v : Word) :
    (s.putReg r v).reg r = v ∧ SameBut [r] s (s.putReg r v) ∧ SameMemoryCursors s (s.putReg r v) ∧
      (s.putReg r v).rb.rc = s.rb.rc ∧ (s.putReg r v).rb.wc = slotOffset (regSlot r) + 2 :=
  ⟨by simp, SameBut.putReg s r v, ⟨by simp, by simp⟩, by simp, by simp⟩

/-- Settles O22: the meaning is one register write. -/
theorem movLitR1WritesR1 : Obligations.MovLitR1WritesR1 := fun lit s =>
  ⟨_, exec_movLitR1 lit s, putReg_contract s .r1 lit⟩

/-- Settles O23: the meaning is one register write. -/
theorem movLitR2WritesR2 : Obligations.MovLitR2WritesR2 := fun lit s =>
  ⟨_, exec_movLitR2 lit s, putReg_contract s .r2 lit⟩

/-- Settles O24: on two legal slots the meaning is two cursor moves and the write of the sum to `acc`. -/
theorem addRegRegWritesTheSum : Obligations.AddRegRegWritesTheSum := by
  intro a b s ha hb
  rw [exec_addRegReg, if_pos (by omega), if_pos (by omega)]
  obtain ⟨hacc, frame, ⟨hmr, hmw⟩, hrr, hrw⟩ :=
    putReg_contract (s.rbCursor (slotOffset b.toNat + 2)) .acc (s.slot a.toNat + s.slot b.toNat)
  refine ⟨_, rfl, ?_, ((SameBut.rbCursor s _).mono (by simp)).trans frame, ⟨hmr, hmw⟩, hrr, hrw⟩
  rw [hacc, BitVec.toNat_add]

/-- Settles O29: the sum modulo 2^16, by whether it is below 2^16. -/
theorem sumWrapsModulo65536 : Obligations.SumWrapsModulo65536 := by
  intro va vb
  have ha := va.isLt
  have hb := vb.isLt
  have law : (add16 va vb).toNat = (va.toNat + vb.toNat) % 2 ^ 16 := BitVec.toNat_add va vb
  refine ⟨fun h => ?_, fun h => ?_, BitVec.add_comm va vb⟩
  · rw [law, Nat.mod_eq_of_lt (by omega)]
  · omega

end Sys2Proof.Machine
end

section
/-! The fetches (R59, R60), and the whole step of each instruction: what it leaves and where it fails (R67 to R72, R99,
R102). -/

namespace Sys2Proof.Machine

/-! ### The fetches (R59, R60) -/

theorem fetch_of_lt {s : State} (h : s.a0.toNat < s.memSize) : fetch s = .ok (s.at s.a0, s.advance 1) :=
  (fetch_eq s).trans (if_neg (Nat.not_le.2 h))

theorem fetch_of_ge {s : State} (h : s.memSize ≤ s.a0.toNat) : fetch s = .error (.outOfBounds s.stuck) :=
  (fetch_eq s).trans (if_pos h)

/-- Settles O8: the two branches of the bounds check of `fetch()`. -/
theorem fetchReadsByteAndAdvances : Obligations.FetchReadsByteAndAdvances := fun s =>
  ⟨fun h => ⟨_, fetch_of_lt h, s.advance_one_reg_ip, SameBut.advance s 1⟩,
    fun h => ⟨_, fetch_of_ge h, SameBut.stuck s⟩⟩

theorem State.advance_two_reg_ip (s : State) : (s.advance 2).reg .ip = s.a2 := by simp [State.a2]

/-- Settles O9: the two branches of the bounds check of `fetch_word()`. -/
theorem fetchWordReadsWordAndAdvances : Obligations.FetchWordReadsWordAndAdvances := fun s =>
  ⟨fun h => ⟨_, (fetchWord_eq s).trans (if_neg (Nat.not_lt.2 h)), s.advance_two_reg_ip, SameBut.advance s 2⟩,
    fun h => ⟨_, (fetchWord_eq s).trans (if_pos h), SameBut.stuck s⟩⟩

/-! ### The step of a literal move (R67 to R69) -/

section LiteralMove
variable {s : State} {op : Byte} {r : RegName} (hr : (op = opMovLitR1 ∧ r = .r1) ∨ (op = opMovLitR2 ∧ r = .r2))
include hr

theorem literalMove_dest_ne_ip : r ≠ .ip := by
  obtain ⟨_, rfl⟩ | ⟨_, rfl⟩ := hr <;> decide

variable (o : s.Opcode op)
include o

theorem literalMove_completes (h : s.LiteralFits) :
    ∃ t, step s = .next t ∧ t.reg r = s.wordAt s.a1 ∧ t.reg .ip = s.a3 ∧ SameBut [r, .ip] s t := by
  refine ⟨_, (step_of_literalMove hr o).trans (if_pos h), by simp, ?_, ?_⟩
  · rw [State.putReg_reg, if_neg (literalMove_dest_ne_ip hr).symm, State.pastLit_reg, if_pos rfl]
  · exact ((SameBut.pastLit s).mono (by simp)).trans ((SameBut.putReg _ _ _).mono (by simp))

theorem literalMove_fails (h : s.memSize < s.a1.toNat + 2) : FailsAt .outOfBounds s.a1 s := by
  refine failsAt_literalFetch ?_ h
  obtain ⟨rfl, _⟩ | ⟨rfl, _⟩ := hr
  · exact .inl o
  · exact .inr o

end LiteralMove

/-- Settles O26: by whether the literal is in memory. -/
theorem literalMoveStep : Obligations.LiteralMoveStep := by
  intro s op r hr o
  refine ⟨fun h => ?_, literalMove_fails hr o⟩
  obtain ⟨t, e, hreg, hip, frame⟩ := literalMove_completes hr o h
  exact ⟨t, e, by rw [hreg]; exact wordOfBytes_toNat _ _, hip, frame⟩

/-- Settles O37: the literal and whether it fits depend on `ip` and program memory, which the two states share. -/
theorem literalMoveReadsNoGeneralRegister : Obligations.LiteralMoveReadsNoGeneralRegister := by
  intro s s' op r hr o hmem hbyte hip
  have o' : s'.Opcode op := by
    obtain ⟨hlt, ho⟩ := o
    simp only [State.Opcode, State.a0, State.at] at hlt ho ⊢
    rw [hip, hmem, hbyte]
    exact ⟨hlt, ho⟩
  have h1 : s'.a1 = s.a1 := congrArg (· + 1#16) hip
  have h3 : s'.a3 = s.a3 := congrArg (· + 3#16) hip
  have hw : s'.wordAt s'.a1 = s.wordAt s.a1 := by simp only [State.wordAt, h1, hbyte]
  by_cases h : s.LiteralFits
  · have h' : s'.LiteralFits := by rw [State.LiteralFits, h1, hmem]; exact h
    obtain ⟨t, e, hreg, hip, _⟩ := literalMove_completes hr o h
    obtain ⟨t', e', hreg', hip', _⟩ := literalMove_completes hr o' h'
    exact .inl ⟨t, t', e, e', by rw [hreg', hreg, hw], by rw [hip', hip, h3]⟩
  · have h : s.memSize < s.a1.toNat + 2 := Nat.not_le.1 h
    obtain ⟨f, e, hk, hip, _⟩ := literalMove_fails hr o h
    obtain ⟨f', e', hk', hip', _⟩ := literalMove_fails hr o' (by rwa [hmem, h1])
    exact .inr ⟨f, f', e, e', by rw [hk', hk], by rw [hip', hip, h1]⟩

/-! ### The step of an addition (R70 to R72) -/

theorem addition_completes {s : State} (o : s.Opcode opAddRegReg) (h : s.SlotsFit) (ha : (s.at s.a1).toNat ≤ 9)
    (hb : (s.at s.a2).toNat ≤ 9) :
    ∃ t, step s = .next t ∧ t.reg .acc = s.slotSeen (s.at s.a1).toNat + s.slotSeen (s.at s.a2).toNat ∧
      t.reg .ip = s.a3 ∧ SameBut [.acc, .ip] s t := by
  rw [step_of_slotsFit o h, if_neg (by omega), if_neg (by omega), pastSlots_slot s _ (by omega),
    pastSlots_slot s _ (by omega)]
  refine ⟨_, rfl, by simp, ?_, ?_⟩
  · rw [State.putReg_reg, if_neg (by decide), State.rbCursor_reg, State.pastSlots_reg, if_pos rfl]
  · have past := (SameBut.pastSlots s).mono (qs := [.acc, .ip]) (by simp)
    exact (past.trans ((SameBut.rbCursor _ _).mono (by simp))).trans ((SameBut.putReg _ _ _).mono (by simp))

/-- Settles O27: `addition_completes`, the sum as a number. -/
theorem addRegRegStep : Obligations.AddRegRegStep := by
  intro s o h ha hb
  obtain ⟨t, e, hacc, hip, frame⟩ := addition_completes o h ha hb
  exact ⟨t, e, by rw [hacc, BitVec.toNat_add], hip, frame⟩

theorem State.slotSeen_zero (s : State) : s.slotSeen 0 = s.a3 := rfl

theorem State.slotSeen_regSlot (s : State) {r : RegName} (h : r ≠ .ip) : s.slotSeen (regSlot r) = s.reg r :=
  if_neg (fun e => h (regSlot_inj.1 (e : regSlot r = regSlot .ip)))

/-- Settles O28: `addition_completes` with both operands 0, then both 1, the slot of `acc`. -/
theorem slotReadsSeeIpPastTheInstruction : Obligations.SlotReadsSeeIpPastTheInstruction := by
  intro s o h
  constructor
  · intro ha hb
    obtain ⟨t, e, hacc, _⟩ := addition_completes o h (by rw [ha]; decide) (by rw [hb]; decide)
    rw [ha, hb] at hacc
    exact ⟨t, e, hacc⟩
  · intro ha hb
    obtain ⟨t, e, hacc, _⟩ := addition_completes o h (by rw [ha]; decide) (by rw [hb]; decide)
    rw [ha, hb] at hacc
    exact ⟨t, e, hacc.trans (by rw [← s.slotSeen_regSlot (r := .acc) (by decide)]; rfl)⟩

/-! ### What every step leaves (R66, R75, R99) -/

/-- A step that completes is a literal move whose literal is in memory, or an addition whose slot indices are in memory
and legal. -/
theorem instr_of_step_next {s t : State} (h : step s = .next t) :
    (s.Opcode opMovLitR1 ∨ s.Opcode opMovLitR2) ∧ s.LiteralFits ∨
      s.Opcode opAddRegReg ∧ s.SlotsFit ∧ (s.at s.a1).toNat ≤ 9 ∧ (s.at s.a2).toNat ≤ 9 := by
  obtain ⟨_, e⟩ | ⟨_, _, e⟩ | ⟨_, _, e⟩ | ⟨_, _, e⟩ | ⟨_, _, _, e⟩ | ⟨_, _, _, e⟩ | ⟨_, _, _, _, e⟩ | ⟨o, hl, e⟩ |
    ⟨o, hl, e⟩ | ⟨o, hf, ha, hb, e⟩ := step_cases s
  all_goals cases e.symm.trans h
  · exact .inl ⟨.inl o, hl⟩
  · exact .inl ⟨.inr o, hl⟩
  · exact .inr ⟨o, hf, Nat.le_of_lt_succ ha, Nat.le_of_lt_succ hb⟩

/-- A step that completes moves `ip` past three bytes. -/
theorem reg_ip_of_step_next {s t : State} (h : step s = .next t) : t.reg .ip = s.a3 := by
  obtain ⟨o, hl⟩ | ⟨o, hf, ha, hb⟩ := instr_of_step_next h
  · obtain ⟨op, r, hr, o⟩ := exists_literalMove o
    obtain ⟨_, e, _, hip, _⟩ := literalMove_completes hr o hl
    cases e.symm.trans h
    exact hip
  · obtain ⟨_, e, _, hip, _⟩ := addition_completes o hf ha hb
    cases e.symm.trans h
    exact hip

/-- What is left by a step that fails at a row of R99. -/
theorem FailsAt.left {k : FailureKind} {w : Word} {s : State} {f : Fault} (h : FailsAt k w s) (e : step s = .fault f) :
    (resume f).a0 = w ∧ SameBut [.ip] s (resume f) := by
  obtain ⟨_, e', _, hip, frame⟩ := h
  cases e'.symm.trans e
  exact ⟨hip, frame⟩

/-- A step that fails leaves `ip` at the start of the instruction or past one, two or three of its bytes. -/
theorem reg_ip_of_step_fault {s : State} {f : Fault} (h : step s = .fault f) :
    (resume f).reg .ip = s.a0 ∨ (resume f).reg .ip = s.a1 ∨ (resume f).reg .ip = s.a2 ∨ (resume f).reg .ip = s.a3 := by
  obtain ⟨c, _⟩ | ⟨c, hi, _⟩ | ⟨o, c, _⟩ | ⟨o, c, _⟩ | ⟨o, c, d, _⟩ | ⟨o, c, d, _⟩ | ⟨o, c, d, g, _⟩ | ⟨_, _, e⟩ |
    ⟨_, _, e⟩ | ⟨_, _, _, _, e⟩ := step_cases s
  · exact .inl ((failsAt_opcodeFetch c).left h).1
  · exact .inr (.inl ((failsAt_of_illegal c hi).left h).1)
  · exact .inr (.inl ((failsAt_literalFetch o c).left h).1)
  · exact .inr (.inl ((failsAt_fetchA o c).left h).1)
  · exact .inr (.inr (.inl ((failsAt_fetchB o c d).left h).1))
  · exact .inr (.inr (.inr ((failsAt_slotA o c d).left h).1))
  · exact .inr (.inr (.inr ((failsAt_slotB o c (Nat.le_of_lt_succ d) g).left h).1))
  all_goals cases e.symm.trans h

/-- Settles O35: where `ip` is left, and the frames of a completed and of a failed step. -/
theorem stepFrame : Obligations.StepFrame :=
  ⟨fun _ _ h => ⟨reg_ip_of_step_next h, sameBut_of_step_next h⟩,
    fun _ _ h => ⟨sameBut_of_step_fault h, reg_ip_of_step_fault h⟩⟩

/-- Settles O32: by the outcome of the step and the kind of the fault; a refusal and RegisterNotFound are ruled out. -/
theorem stepIsTotal : Obligations.StepIsTotal := by
  intro s
  cases h : step s with
  | next t => exact .inl ⟨t, rfl⟩
  | fault f =>
    cases f with
    | outOfBounds t => exact .inr (.inl ⟨t, rfl⟩)
    | unknownInstruction op t => exact .inr (.inr ⟨op, t, rfl⟩)
    | registerNotFound t => exact absurd h (step_ne_registerNotFound s t)
  | refused r => exact absurd h (step_not_refused s r)

/-! ### The step after a failed one (R102) -/

/-- Settles O33: the failed step moved cursors only, so the state it leaves meets the same condition. -/
theorem opcodeFetchFailureRepeats : Obligations.OpcodeFetchFailureRepeats := by
  intro s f h hf
  cases (step_of_outOfBounds h).symm.trans hf
  exact ⟨SameBut.stuck s, failsAt_opcodeFetch (s := s.stuck) h⟩

/-- Settles O34: row 5 of R99 leaves `ip` beyond memory, where the opcode fetch fails; with both slot bytes in memory the
failure is row 6 or row 7, which leave `ip` past the instruction. -/
theorem stepAfterFailedAddition : Obligations.StepAfterFailedAddition := by
  intro s f o h1 hf
  constructor
  · intro h2
    obtain ⟨hip, hmem, _⟩ := (failsAt_fetchB o h1 h2).left hf
    have again := failsAt_opcodeFetch (s := resume f) (by rw [hip, hmem]; exact h2)
    rwa [hip] at again
  · intro h2
    have fits : s.SlotsFit := ⟨h1, h2⟩
    have row : FailsAt .outOfBounds s.a3 s := by
      by_cases ha : (s.at s.a1).toNat ≤ 9
      · by_cases hb : (s.at s.a2).toNat ≤ 9
        · obtain ⟨t, e⟩ := step_addition_completes o fits ha hb
          cases e.symm.trans hf
        · exact failsAt_slotB o fits ha (Nat.not_le.1 hb)
      · exact failsAt_slotA o fits (Nat.not_le.1 ha)
    obtain ⟨hip, _, _, hreg⟩ := row.left hf
    exact ⟨hip, hreg .acc (by decide)⟩

end Sys2Proof.Machine
end

section
/-! The step as the meaning of the decoded instruction (R61, R62), of an instruction placed at `ip` (log 14), and the
first step after a construction (R114, R116). -/

namespace Sys2Proof.Machine

/-! ### The decoded instruction -/

theorem State.instrBytes_eq_iff (s : State) (op x y : Byte) :
    s.instrBytes = [op, x, y] ↔ s.at s.a0 = op ∧ s.at s.a1 = x ∧ s.at s.a2 = y := by
  simp [State.instrBytes]

theorem State.pastLit_reg_ip (s : State) : s.pastLit.reg .ip = s.a3 := (s.pastLit_reg .ip).trans (if_pos rfl)

theorem State.pastSlots_reg_ip (s : State) : s.pastSlots.reg .ip = s.a3 := (s.pastSlots_reg .ip).trans (if_pos rfl)

section DecodedInstruction
variable {s : State} (h : s.a0.toNat < s.memSize)
include h

/-- A literal whose second byte follows its first in the address space: the meaning of the move, past its fetches. -/
theorem step_of_literal_bytes {op : Byte} {r : RegName} {lit : Word}
    (hr : (op = opMovLitR1 ∧ r = .r1) ∨ (op = opMovLitR2 ∧ r = .r2))
    (hb : s.instrBytes = [op, hiByte lit, loByte lit]) (hf : s.LiteralFits) (h2 : s.a2.toNat = s.a1.toNat + 1) :
    step s = .next (s.pastLit.putReg r lit) := by
  obtain ⟨ho, hx, hy⟩ := (s.instrBytes_eq_iff _ _ _).1 hb
  have hw : s.wordAt s.a1 = lit := by
    rw [State.at, h2] at hy
    rw [State.at] at hx
    rw [State.wordAt, hx, hy, wordOfBytes_hi_lo]
  exact (step_of_literalMove hr ⟨h, ho⟩).trans (by rw [hw]; exact if_pos hf)

/-- Two slot indices in memory: the meaning of the addition, past its fetches. -/
theorem step_of_slot_bytes {a b : Byte} (hb : s.instrBytes = [opAddRegReg, a, b]) (hf : s.SlotsFit) :
    step s = exec (.addRegReg a b) s.pastSlots := by
  obtain ⟨ho, rfl, rfl⟩ := (s.instrBytes_eq_iff _ _ _).1 hb
  rw [step_of_slotsFit ⟨h, ho⟩ hf, exec_addRegReg]
  simp only [← Nat.not_lt, ite_not]

/-- The step is the meaning of the instruction whose encoding stands at `ip`, run past its three bytes. -/
theorem step_eq_exec_of_instrBytes {i : Instr} (hb : s.instrBytes = encode i) (hf : s.OperandsFit i)
    (h2 : s.LiteralFits → s.a2.toNat = s.a1.toNat + 1) :
    ∃ t, step s = exec i t ∧ t.reg .ip = s.a3 ∧ SameBut [.ip] s t := by
  have past : s.pastLit.reg .ip = s.a3 ∧ SameBut [.ip] s s.pastLit := ⟨s.pastLit_reg_ip, SameBut.pastLit s⟩
  cases i with
  | movLitR1 lit =>
    exact ⟨s.pastLit, by rw [step_of_literal_bytes h (.inl ⟨rfl, rfl⟩) hb hf (h2 hf), exec_movLitR1], past⟩
  | movLitR2 lit =>
    exact ⟨s.pastLit, by rw [step_of_literal_bytes h (.inr ⟨rfl, rfl⟩) hb hf (h2 hf), exec_movLitR2], past⟩
  | addRegReg a b => exact ⟨s.pastSlots, step_of_slot_bytes h hb hf, s.pastSlots_reg_ip, SameBut.pastSlots s⟩

end DecodedInstruction

/-! ### Consecutive addresses: below the top of the address space the next one is the next natural. -/

theorem State.a1_toNat {s : State} (h : s.a0.toNat < 65535) : s.a1.toNat = s.a0.toNat + 1 :=
  (BitVec.toNat_add _ _).trans (Nat.mod_eq_of_lt (show s.a0.toNat + 1 < 65536 by omega))

theorem State.a2_eq_a1_add_one (s : State) : s.a2 = s.a1 + 1#16 := by
  simp only [State.a2, State.a1, BitVec.add_assoc]
  rfl

theorem State.a2_toNat {s : State} (h : s.a1.toNat < 65535) : s.a2.toNat = s.a1.toNat + 1 := by
  rw [State.a2_eq_a1_add_one, BitVec.toNat_add]
  exact Nat.mod_eq_of_lt (show s.a1.toNat + 1 < 65536 by omega)

/-- Settles O5: the three bytes are the encoding of the instruction, and a literal that fits a memory of R5 does not
reach the top of the address space before its last byte. -/
theorem stepRunsDecodedInstruction : Obligations.StepRunsDecodedInstruction := by
  intro s i hwf h hd hf
  obtain ⟨hm, _⟩ := (State.wf_iff s).1 hwf
  have hb : s.instrBytes = encode i := by simpa using eq_encode_append_of_decode hd
  refine step_eq_exec_of_instrBytes h hb hf (fun hl => State.a2_toNat ?_)
  unfold State.LiteralFits at hl
  omega

/-! ### The placed instruction (log 14) -/

theorem exists_encode_eq (i : Instr) : ∃ op x y, encode i = [op, x, y] := by
  cases i <;> exact ⟨_, _, _, rfl⟩

section Placed
variable (s : State) (i : Instr)

theorem State.withFetchWord_reg (nbits w : Nat) (r : RegName) : (s.withFetchWord nbits w).reg r = s.reg r := rfl

/-- Placing stores the encoding at `ip`: the three addresses are distinct words. -/
theorem State.withFetchWord_instrBytes : (s.withFetchWord 24 (tableWord i)).instrBytes = encode i := by
  obtain ⟨op, x, y, e⟩ := exists_encode_eq i
  have byte (a : Nat) : (s.withFetchWord 24 (tableWord i)).byte a =
      if (s.reg .ip + 2#16).toNat = a then y else if (s.reg .ip + 1#16).toNat = a then x
      else if (s.reg .ip).toNat = a then op else s.byte a := by
    simp [-BitVec.toNat_add, State.withFetchWord, tableBytes_tableWord, e, State.byte, List.zipIdx]
  rw [e, State.instrBytes_eq_iff]
  simp only [State.at, State.a0, State.a1, State.a2, State.withFetchWord_reg, byte, BitVec.toNat_inj]
  simp

/-- Placing leaves a memory that holds the three bytes. -/
theorem State.withFetchWord_memSize (h : s.a0.toNat + 3 ≤ 65536) :
    s.a0.toNat + 3 ≤ (s.withFetchWord 24 (tableWord i)).memSize := by
  change _ ≤ if s.a0.toNat + 3 ≤ s.memSize then s.memSize else Config.maxMemSize
  split_ifs with hm
  · exact hm
  · exact h

end Placed

/-- Operand bytes that do not wrap are in memory when the third byte is. -/
theorem State.operandsFit_of_le {s : State} (h : s.a0.toNat + 3 ≤ 65536) (hm : s.a0.toNat + 3 ≤ s.memSize) (i : Instr) :
    s.OperandsFit i ∧ s.a2.toNat = s.a1.toNat + 1 := by
  have h1 : s.a1.toNat = s.a0.toNat + 1 := State.a1_toNat (by omega)
  have h2 : s.a2.toNat = s.a1.toNat + 1 := State.a2_toNat (by omega)
  refine ⟨?_, h2⟩
  cases i with
  | movLitR1 lit | movLitR2 lit => change s.a1.toNat + 2 ≤ s.memSize; omega
  | addRegReg a b => exact ⟨by omega, by omega⟩

/-- Settles O7: `step_eq_exec_of_instrBytes` on the state after placing, whose registers are the old ones. -/
theorem placedInstructionRuns : Obligations.PlacedInstructionRuns := by
  intro s i h
  have hm := s.withFetchWord_memSize i h
  obtain ⟨fits, h2⟩ := State.operandsFit_of_le (s := s.withFetchWord 24 (tableWord i)) h hm i
  have hlt : s.a0.toNat < (s.withFetchWord 24 (tableWord i)).memSize := by omega
  obtain ⟨t, e, hip, _, _, hreg⟩ :=
    step_eq_exec_of_instrBytes hlt (s.withFetchWord_instrBytes i) fits (fun _ => h2)
  exact ⟨t, e, hip, fun r hr => hreg r (by simpa using hr)⟩

/-! ### The first step after a construction (R114, R116) -/

/-- Settles O38: the fields of a constructed block; its first opcode byte is 0x00, which is illegal, or is beyond an empty
memory. -/
theorem resetState : Obligations.ResetState := by
  have a0 (n : Nat) : (State.constructed n).a0 = 0#16 := State.constructed_reg n .ip
  refine ⟨rfl, fun n => ⟨rfl, State.constructed_byte n, State.constructed_reg n, rfl, rfl, rfl, rfl⟩, fun n h => ?_, ?_⟩
  · have illegal : IllegalOpcode ((State.constructed n).at (State.constructed n).a0) := by
      rw [State.at, State.constructed_byte]
      exact ⟨by decide, by decide, by decide⟩
    have row := failsAt_of_illegal (by rw [a0]; exact h) illegal
    rwa [State.at, State.constructed_byte, State.a1, State.constructed_reg] at row
  · have row := failsAt_opcodeFetch (s := State.constructed 0) (Nat.zero_le _)
    rwa [a0] at row

end Sys2Proof.Machine
end

section
/-! Runs: they are straight-line (R75) and every one of them ends (R78). -/

namespace Sys2Proof.Machine

/-! ### Straight-line runs (R75) -/

theorem straightLine_of_step_next {s t : State} (h : step s = .next t) : SameBut [.ip, .acc, .r1, .r2] s t := by
  obtain f | f | f := sameBut_of_step_next h <;> exact f.mono (by simp)

/-- One step, then `k` more: the advances add up. -/
theorem add_three_add (w : Word) (k : Nat) :
    w + 3#16 + BitVec.ofNat 16 (3 * k) = w + BitVec.ofNat 16 (3 * (k + 1)) := by
  rw [BitVec.add_assoc, ← BitVec.ofNat_add, Nat.mul_succ, Nat.add_comm 3]

/-- Settles O44: by induction on the number of steps, each of which moves `ip` by 3 within its frame. -/
theorem runsAreStraightLine : Obligations.RunsAreStraightLine := by
  intro k
  induction k with
  | zero =>
    intro s t h
    cases (core_run_zero s).symm.trans h
    exact ⟨by simp, SameBut.refl _ s⟩
  | succ k ih =>
    intro s t h
    obtain ⟨u, e, hu⟩ := (runsTo_succ k s t).1 h
    obtain ⟨hip, frame⟩ := ih u t hu
    refine ⟨?_, (straightLine_of_step_next e).trans frame⟩
    rw [hip, reg_ip_of_step_next e, State.a3, add_three_add]

/-! ### A run that does not end within `k` steps completes each of them -/

theorem endsWithin_or_runsTo (k : Nat) (s : State) : EndsWithin k s ∨ ∃ t, RunsTo k s t := by
  induction k generalizing s with
  | zero => exact .inr ⟨s, core_run_zero s⟩
  | succ k ih =>
    cases h : step s with
    | next u =>
      obtain ⟨f, e⟩ | ⟨t, e⟩ := ih u
      · exact .inl ⟨f, by rw [core_run_succ, h]; exact e⟩
      · exact .inr ⟨t, (runsTo_succ k s t).2 ⟨u, h, e⟩⟩
    | fault f => exact .inl ⟨f, by rw [core_run_succ, h]⟩
    | refused r => exact absurd h (step_not_refused s r)

theorem RunsTo.reaches {k : Nat} {s t : State} (h : RunsTo k s t) {j : Nat} (hj : j < k) :
    ∃ u v, RunsTo j s u ∧ step u = .next v := by
  induction k generalizing s j with
  | zero => omega
  | succ k ih =>
    obtain ⟨w, e, hw⟩ := (runsTo_succ k s t).1 h
    cases j with
    | zero => exact ⟨s, w, core_run_zero s, e⟩
    | succ j =>
      obtain ⟨u, v, hu, hv⟩ := ih hw (Nat.lt_of_succ_lt_succ hj)
      exact ⟨u, v, (runsTo_succ j s u).2 ⟨w, e, hu⟩, hv⟩

/-- Step `j` of the run starts `3j` bytes further on, in the same memory, and completes. -/
theorem RunsTo.completes_at {k : Nat} {s t : State} (h : RunsTo k s t) {j : Nat} (hj : j < k) :
    ∃ u v, u.a0 = s.a0 + BitVec.ofNat 16 (3 * j) ∧ u.memSize = s.memSize ∧ (∀ a, u.byte a = s.byte a) ∧
      step u = .next v := by
  obtain ⟨u, v, hu, e⟩ := h.reaches hj
  obtain ⟨hip, hmem, hbyte, _⟩ := runsAreStraightLine j s u hu
  exact ⟨u, v, hip, hmem, hbyte, e⟩

/-! ### Every run ends (R78) -/

/-- Steps of 3 reach every address, since 3 times 0xAAAB is 1 modulo 2^16. -/
theorem exists_three_mul (w p : Word) : ∃ j < 65536, w + BitVec.ofNat 16 (3 * j) = p := by
  refine ⟨(p - w).toNat * 0xAAAB % 65536, by omega, ?_⟩
  have inverse : BitVec.ofNat 16 (3 * ((p - w).toNat * 0xAAAB % 65536)) = p - w := by
    apply BitVec.eq_of_toNat_eq
    rw [BitVec.toNat_ofNat]
    omega
  rw [inverse, add_sub_cancel]

/-- A step that completes has an opcode byte that is no legal slot index (R51, R55). -/
theorem opcode_gt_of_step_next {s t : State} (h : step s = .next t) : 9 < (s.at s.a0).toNat := by
  obtain ⟨⟨_, o⟩ | ⟨_, o⟩, _⟩ | ⟨⟨_, o⟩, _⟩ := instr_of_step_next h <;> rw [o] <;> decide

/-- An instruction two bytes before the top of the largest memory has no room for a literal. -/
theorem slotA_le_of_step_next {s t : State} (h : step s = .next t) (hm : s.memSize ≤ 65536) (hip : s.a1 = 0xFFFF#16) :
    (s.at s.a1).toNat ≤ 9 := by
  obtain ⟨_, fits⟩ | ⟨_, _, ha, _⟩ := instr_of_step_next h
  · rw [State.LiteralFits, hip] at fits
    exact absurd (Nat.le_trans fits hm) (by decide)
  · exact ha

/-- 65536 completed steps would begin at every address. Then the byte at 0xFFFF is an opcode, and it is the first operand
byte of the instruction at 0xFFFE, where a literal does not fit and a slot index is no opcode. -/
theorem not_runsTo_65536 {s t : State} (hm : s.memSize ≤ 65536) : ¬ RunsTo 65536 s t := by
  intro h
  have visit (p : Word) : ∃ u v, u.a0 = p ∧ u.memSize = s.memSize ∧ (∀ a, u.byte a = s.byte a) ∧ step u = .next v := by
    obtain ⟨j, hj, hp⟩ := exists_three_mul s.a0 p
    exact hp ▸ h.completes_at hj
  obtain ⟨top, _, htop, _, htopByte, etop⟩ := visit 0xFFFF#16
  obtain ⟨u, _, hu, humem, huByte, eu⟩ := visit 0xFFFE#16
  have ha1 : u.a1 = 0xFFFF#16 := congrArg (· + 1#16) hu
  have isOpcode := opcode_gt_of_step_next etop
  have isSlot := slotA_le_of_step_next eu (by rw [humem]; exact hm) ha1
  rw [htop, State.at, htopByte] at isOpcode
  rw [ha1, State.at, huByte] at isSlot
  omega

/-- Settles O45: 65536 steps cannot all complete. -/
theorem everyRunEnds : Obligations.EveryRunEnds := by
  intro s hm
  obtain h | ⟨t, h⟩ := endsWithin_or_runsTo 65536 s
  · exact ⟨65536, Nat.le_refl _, h⟩
  · exact absurd h (not_runsTo_65536 hm)

/-- In a memory below 65536 bytes no instruction wraps: the three bytes of one that completes are in memory. -/
theorem three_bytes_of_step_next {s t : State} (h : step s = .next t) (hm : s.memSize < 65536) :
    s.a0.toNat + 3 ≤ s.memSize := by
  have fits : s.a0.toNat < s.memSize ∧ (s.LiteralFits ∨ s.SlotsFit) := by
    obtain ⟨⟨hlt, _⟩ | ⟨hlt, _⟩, hf⟩ | ⟨⟨hlt, _⟩, hf, _⟩ := instr_of_step_next h
    · exact ⟨hlt, .inl hf⟩
    · exact ⟨hlt, .inl hf⟩
    · exact ⟨hlt, .inr hf⟩
  obtain ⟨hlt, fits⟩ := fits
  have h1 : s.a1.toNat = s.a0.toNat + 1 := State.a1_toNat (by omega)
  obtain hl | ⟨ha, hb⟩ := fits
  · unfold State.LiteralFits at hl
    omega
  · have h2 : s.a2.toNat = s.a1.toNat + 1 := State.a2_toNat (by omega)
    omega

/-- Settles O46: step number `MEM_SIZE / 3` would start less than three bytes before the end of memory. -/
theorem runFromZeroEndsInBoundedSteps : Obligations.RunFromZeroEndsInBoundedSteps := by
  intro s hm hip
  obtain h | ⟨t, h⟩ := endsWithin_or_runsTo (s.memSize / 3 + 1) s
  · exact h
  · obtain ⟨u, v, hu, hmem, _, e⟩ := h.completes_at (Nat.lt_succ_self _)
    have ha0 : u.a0.toNat = 3 * (s.memSize / 3) := by
      rw [hu, State.a0, hip, BitVec.zero_add, BitVec.toNat_ofNat, Nat.mod_eq_of_lt (by omega)]
    have := three_bytes_of_step_next e (by omega)
    omega

end Sys2Proof.Machine
end

section
/-! The operations of the host: `set_register` and what moves `ip` (R85, R75), `load` (R82), `debug` (R86), the legal order
(R88), and that a write of the host is seen by the next step (R91). -/

namespace Sys2Proof.Machine

/-! ### A step of the host (R83) -/

theorem perform_step_of_next {s t : State} (h : step s = .next t) (b : Bool) :
    perform .step (some ⟨s, b⟩) = .ok (.ok, ⟨t, false⟩) := by
  simp only [perform, h]

theorem perform_step_of_fault {s : State} {f : Fault} (h : step s = .fault f) (b : Bool) :
    perform .step (some ⟨s, b⟩) = .ok (.failed f.kind, ⟨resume f, false⟩) := by
  simp only [perform, h]

/-- The host's step moves `ip` as a step does. -/
theorem perform_step_reg_ip {x y : Session} {reply : Reply} (h : perform .step (some x) = .ok (reply, y)) :
    y.block.reg .ip = x.block.a0 ∨ y.block.reg .ip = x.block.a1 ∨ y.block.reg .ip = x.block.a2 ∨
      y.block.reg .ip = x.block.a3 := by
  cases e : step x.block with
  | next t =>
    cases (perform_step_of_next e x.mayLoad).symm.trans h
    exact .inr (.inr (.inr (reg_ip_of_step_next e)))
  | fault f =>
    cases (perform_step_of_fault e x.mayLoad).symm.trans h
    exact reg_ip_of_step_fault e
  | refused r => exact absurd e (step_not_refused _ _)

/-! ### set_register (R85) -/

/-- What a `set_register` of a name of the set leaves. -/
theorem eq_putReg_of_setRegister {r : RegName} {v : Word} {s t : State} (h : setRegister (regText r) v s = .ok t) :
    t = s.putReg r v := by
  cases (setRegister_regText r v s).symm.trans h
  rfl

/-- `set_register` of `ip` is where the next step starts, in the same memory. -/
theorem setRegister_ip {v : Word} {s t : State} (h : setRegister "ip" v s = .ok t) :
    t.a0 = v ∧ t.memSize = s.memSize ∧ ∀ a, t.byte a = s.byte a := by
  obtain rfl := eq_putReg_of_setRegister (r := .ip) h
  exact ⟨by simp [State.a0], by simp, by simp⟩

/-- A load writes program memory and no register (R82). -/
theorem load_reg {p : List Byte} {s t : State} (h : load p s = .ok t) (r : RegName) : t.reg r = s.reg r := by
  rw [load_eq] at h
  split_ifs at h
  cases h
  rfl

/-- Beside a construction and `set_register` of `ip`, a step alone moves `ip`. -/
theorem perform_reg_ip {op : HostOp} {x y : Session} {reply : Reply} (h : perform op (some x) = .ok (reply, y))
    (hc : ∀ n, op ≠ .construct n) (hi : ∀ v, op ≠ .setRegister "ip" v) (hs : op ≠ .step) :
    y.block.reg .ip = x.block.reg .ip := by
  obtain ⟨n, e, _⟩ | ⟨_, _, _, hl⟩ | ⟨e, _⟩ | ⟨_, _, hg⟩ | ⟨_, v, ho, hw⟩ | ⟨_, _, o, e, _⟩ := perform_cases h
  · exact absurd e (hc n)
  · obtain ⟨_, e, _⟩ | ⟨_, e, _⟩ := hl
    · rw [e]
    · exact load_reg e .ip
  · exact absurd e hs
  · obtain ⟨_, _, e, _⟩ | ⟨_, e, _⟩ := hg <;> simp [e]
  · obtain ⟨r, rfl, e, _⟩ | ⟨_, e, _⟩ := hw
    · have hr : r ≠ .ip := by
        rintro rfl
        exact hi v ho
      rw [e, State.putReg_reg, if_neg hr.symm]
    · rw [e]
  · simp [e]

/-- Settles O20: the write, its failure, the opcode fetch at an `ip` beyond memory, and what moves `ip`. -/
theorem setRegisterWritesByName : Obligations.SetRegisterWritesByName := by
  refine ⟨fun r v s => ?_, fun name v s h => setRegister_none h v s, fun v s t h hv => ?_,
    fun _ _ => reg_ip_of_step_next, fun _ _ => reg_ip_of_step_fault, fun op x y reply h hc hi => ?_⟩
  · exact ⟨_, setRegister_regText r v s, by simp, SameBut.putReg s r v⟩
  · obtain ⟨hip, hmem, _⟩ := setRegister_ip h
    have row := failsAt_opcodeFetch (s := t) (by rw [hip, hmem]; exact hv)
    rwa [hip] at row
  · by_cases hs : op = .step
    · subst hs
      obtain h0 | moved := perform_step_reg_ip h
      · exact .inl h0
      · exact .inr ⟨rfl, moved⟩
    · exact .inl (perform_reg_ip h hc hi hs)

/-! ### load (R82) -/

/-- Settles O47: by whether the bytes fit; where they do, each is read back at its address (`Memory.read_writeBytes`). -/
theorem loadWritesAllOrNothing : Obligations.LoadWritesAllOrNothing := by
  intro p s
  refine ⟨fun h => ?_, fun h => (load_eq p s).trans (if_pos h)⟩
  refine ⟨_, (load_eq p s).trans (if_neg (Nat.not_lt.2 h)), fun k hk => ?_, fun a ha => ?_, rfl, rfl, rfl⟩
  · rw [State.byte_setM, Memory.read_writeBytes, dif_pos ⟨Nat.zero_le k, hk⟩]
    rfl
  · rw [State.byte_setM, Memory.read_writeBytes, dif_neg (fun ⟨_, hk⟩ => Nat.not_lt.2 ha hk)]
    rfl

/-! ### debug (R86) -/

/-- The hexadecimal digit of a word whose lowest bit is bit `k`. -/
def hexNibble (v : Word) (k : Nat) : Fin 16 := ⟨v.toNat / 2 ^ k % 16, Nat.mod_lt _ (by decide)⟩

theorem hexWord_eq (v : Word) :
    hexWord v = String.ofList [upperHex (hexNibble v 12), upperHex (hexNibble v 8), upperHex (hexNibble v 4),
      upperHex (hexNibble v 0)] := by
  simp only [← hexDigit_eq_upperHex]
  rfl

/-- The four digits are the value's. -/
theorem toNat_eq_hexNibbles (v : Word) :
    v.toNat = 4096 * (hexNibble v 12).val + 256 * (hexNibble v 8).val + 16 * (hexNibble v 4).val +
      (hexNibble v 0).val := by
  have := v.isLt
  simp only [hexNibble]
  omega

/-- The lines of a dump, written out. -/
theorem State.dump_eq (s : State) :
    s.dump =
      ["ip: 0x" ++ hexWord (s.reg .ip) ++ "\n",
       "acc: 0x" ++ hexWord (s.reg .acc) ++ "\n",
       "r1: 0x" ++ hexWord (s.reg .r1) ++ "\n",
       "r2: 0x" ++ hexWord (s.reg .r2) ++ "\n",
       "r3: 0x" ++ hexWord (s.reg .r3) ++ "\n",
       "r4: 0x" ++ hexWord (s.reg .r4) ++ "\n",
       "r5: 0x" ++ hexWord (s.reg .r5) ++ "\n",
       "r6: 0x" ++ hexWord (s.reg .r6) ++ "\n",
       "r7: 0x" ++ hexWord (s.reg .r7) ++ "\n",
       "r8: 0x" ++ hexWord (s.reg .r8) ++ "\n"] := by
  simp [State.dump, RegName.all, debugLine, regText]

theorem State.rbCursor_dump (s : State) (o : Nat) : (s.rbCursor o).dump = s.dump := rfl

/-- Settles O48: a dump moves one cursor, which no register read depends on. -/
theorem debugDumpsTheTenRegisters : Obligations.DebugDumpsTheTenRegisters := by
  refine ⟨fun s => ?_, fun v => ⟨_, _, _, _, toNat_eq_hexNibbles v, hexWord_eq v⟩⟩
  obtain ⟨o, e, _⟩ := debug_eq s
  obtain ⟨o', e', _⟩ := debug_eq (s.rbCursor o)
  exact ⟨s.dump, _, e, SameBut.rbCursor s o, ⟨_, e'⟩, s.dump_eq⟩

/-! ### The legal order (R88) -/

theorem perform_none {op : HostOp} (h : ∀ n, op ≠ .construct n) : perform op none = .error .notConstructed := by
  cases op with
  | construct n => exact absurd rfl (h n)
  | load | step | getRegister | setRegister | debug => rfl

theorem exists_finish (b : Bool) (r : Except Fault (Reply × State)) : ∃ reply t, finish b r = (reply, ⟨t, b⟩) := by
  cases r with
  | ok p => exact ⟨p.1, p.2, rfl⟩
  | error f => exact ⟨_, _, rfl⟩

theorem perform_load_true (p : List Byte) (s : State) :
    ∃ reply t, perform (.load p) (some ⟨s, true⟩) = .ok (reply, ⟨t, false⟩) := by
  obtain ⟨reply, t, e⟩ := exists_finish false ((load p s).map (fun s => (.ok, s)))
  exact ⟨reply, t, congrArg Except.ok e⟩

theorem exists_perform_step (s : State) (b : Bool) :
    ∃ reply t, perform .step (some ⟨s, b⟩) = .ok (reply, ⟨t, false⟩) := by
  cases h : step s with
  | next t => exact ⟨_, _, perform_step_of_next h b⟩
  | fault f => exact ⟨_, _, perform_step_of_fault h b⟩
  | refused r => exact absurd h (step_not_refused s r)

/-- Settles O49: clause by clause, by the operation. -/
theorem hostOperationOrder : Obligations.HostOperationOrder := by
  refine ⟨fun _ => perform_none, fun _ _ => rfl, perform_load_true, exists_perform_step, fun op s b h => ?_,
    fun _ _ b h => perform_step_of_fault h b⟩
  obtain rfl | ⟨name, rfl⟩ | ⟨name, v, rfl⟩ := h
  · obtain ⟨reply, t, e⟩ := exists_finish b ((debug s).map (fun (text, s) => (.lines text, s)))
    exact ⟨reply, t, congrArg Except.ok e⟩
  · obtain ⟨reply, t, e⟩ := exists_finish b ((getRegister name s).map (fun (v, s) => (.value v, s)))
    exact ⟨reply, t, congrArg Except.ok e⟩
  · obtain ⟨reply, t, e⟩ := exists_finish b ((setRegister name v s).map (fun s => (.ok, s)))
    exact ⟨reply, t, congrArg Except.ok e⟩

/-! ### A write of the host and the next step (R91) -/

/-- Settles O50: `addition_completes` on the state after the write, whose slot reads see the value written; and the fetch
at the `ip` written. -/
theorem hostWritesAreSeenByTheNextStep : Obligations.HostWritesAreSeenByTheNextStep := by
  constructor
  · intro r v s t h hr o fits
    have legal := Nat.le_of_lt_succ (regSlot_lt r)
    have seen : t.slotSeen (regSlot r) = v := by
      rw [t.slotSeen_regSlot hr, eq_putReg_of_setRegister h, State.putReg_reg, if_pos rfl]
    refine ⟨fun ha hb => ?_, fun ha hb => ?_, fun ha hb => ?_⟩
    · obtain ⟨u, e, hacc, _⟩ := addition_completes o fits (ha ▸ legal) hb
      exact ⟨u, e, by rw [hacc, ha, seen]⟩
    · obtain ⟨u, e, hacc, _⟩ := addition_completes o fits ha (hb ▸ legal)
      exact ⟨u, e, by rw [hacc, hb, seen]⟩
    · obtain ⟨u, e, hacc, _⟩ := addition_completes o fits (ha ▸ legal) (hb ▸ legal)
      exact ⟨u, e, by rw [hacc, ha, hb, seen]⟩
  · intro v s t h
    obtain ⟨hip, hmem, hbyte⟩ := setRegister_ip h
    refine ⟨fun hv => ?_, fun o fits ha hb => ?_⟩
    · have hat : t.at t.a0 = s.at v := by rw [hip]; exact hbyte v.toNat
      exact ⟨_, hat ▸ fetch_of_lt (by rw [hip, hmem]; exact hv)⟩
    · have h3 : t.a3 = v + 3#16 := congrArg (· + 3#16) hip
      obtain ⟨u, e, hacc, hip, _⟩ := addition_completes o fits (by rw [ha]; decide) (by rw [hb]; decide)
      rw [ha, hb] at hacc
      exact ⟨u, e, hacc.trans (congrArg₂ (· + ·) h3 h3), hip.trans h3⟩

end Sys2Proof.Machine
end
